-- ==== Sys2Proof/Word.lean ====
section
/-! DEFINITION. The word type of the machine. -/

namespace Sys2Proof

/-- Registers, memory cells, FL, opcode and operand bytes are unsigned 8-bit values
(00_scope.md R6, R15, R16). -/
abbrev Byte := BitVec 8

end Sys2Proof
end

