-- ==== Sys2Proof/Config.lean ====
section
/-! DEFINITION. The implementation parameters of 00_scope.md section 4, and the two host parameters that
the spec leaves open. The register width (R6) is the type `Byte`. The opcode bytes (R11) stand in Decode.lean. -/

namespace Sys2Proof.Config

/-- MEM_SIZE: addresses 0 to 255 (00_scope.md R8). -/
abbrev memSize : Nat := 256

/-- SP_INDEX: register 7 is the stack pointer (00_scope.md R9). -/
abbrev spIndex : Fin 8 := 7

/-- SP_RESET (00_scope.md R9). -/
def spReset : Byte := 0xF4

/-- REG_RESET, the reset value of R0 to R6 (00_scope.md R12, the spec's decision D4; log entry 3). -/
def regReset : Byte := 0x00

/-- FL_RESET (00_scope.md R12, the spec's decision D5; log entry 3). -/
def flReset : Byte := 0x00

/-- MEM_FILL: what a cell reads as that nothing has written (00_scope.md R12, the spec's decision D6; log entry 3). -/
def memFill : Byte := 0x00

/-- IMAGE_MAX (00_scope.md R13). -/
abbrev imageMax : Nat := 256

/-- EXIT_CODE_OOB: the host's exit code for the faults the source gives none for. The spec leaves it OPEN
(60_exceptions.md R192, 92_eei_decisions.md D23; log entry 10). -/
opaque exitCodeOob : Nat

/-- The host's exit code for ImageTooLarge, of which the spec states none (log entry 10). -/
opaque exitCodeImageTooLarge : Nat

end Sys2Proof.Config
end

