-- ==== Sys2Proof/Machine/State.lean ====
section
/-! DEFINITION. The machine's state, the tuple of 10_state.md R20, with its reset value, the fault kinds and the
refusals. -/

namespace Sys2Proof.Machine

/-- Memory: the cells that differ from `Config.memFill`, addresses strictly rising (`Memory.wf` in Ops.lean). -/
abbrev Memory := List Host.Cell

/-- The core's fault kinds, each with its info (60_exceptions.md R183-R187). A fault is TAKEN: it stands in the fault
record of the state's run state, and the step that raises it answers a next state (log entry 1). No step of the
model answers the host's `fault` outcome. -/
inductive Fault where
  /-- Raised by the step cycle: the fetched opcode byte is not one of the thirteen (R183). Safe: the spec's own fault. -/
  | unknownInstruction (byte : Byte)
  /-- Raised by the step cycle, PUSH, POP, CALL and RET: an address outside 0..255 was computed (R184).
  Safe: the spec's own fault. -/
  | memoryOutOfBounds (addr : Int)
  /-- Raised by every instruction with a register operand: the index byte is above 7 (R185). Safe: the spec's own fault. -/
  | registerOutOfBounds (index : Byte)
  /-- Raised by the ALU on a tag other than MUL, ADD, CMP, which no instruction selects (R186). Safe: the spec's own
  fault, unreachable. -/
  | internalFault
deriving DecidableEq, Repr

/-- A fault record (kind, pc, info): the info stands inside the kind, and `pc` is the address of the opcode byte of
the step that raised it (10_state.md R44). -/
structure FaultRecord where
  kind : Fault
  pc : Nat
deriving DecidableEq, Repr

/-- The run state (10_state.md R38). -/
inductive RunState where
  | running
  | halted
  | faulted (record : FaultRecord)
deriving DecidableEq, Repr

/-- Why the model answers no state. `exec` and `step` never do; `Session.load` does. -/
inductive Refusal where
  /-- An instruction without a meaning, by its mnemonic: no arm of `exec` is one. Safe: the model stops. -/
  | notModelled (mnemonic : String)
  /-- Raised by `Session.load`: a second load, or a load after a step (70_reset_and_hazards.md R217: "a model refuses
  it"). Safe: the model stops. -/
  | loadNotAccepted
  /-- Raised by `Session.load`: an image of more than 256 bytes, which the interface does not take (R216).
  Safe: the model stops. -/
  | imageTooLong
deriving DecidableEq, Repr

/-- The machine state (10_state.md R20). -/
structure State where
  /-- `mem[0..255]`, code and data (R37). -/
  mem : Memory
  /-- `x[0..7]`, the register file; `x[7]` is SP (R21, R22). -/
  x : Vector Byte 8
  /-- The program counter, an integer 0..256 (R28). -/
  pc : Nat
  /-- The flags byte FL (R31). -/
  fl : Byte
  /-- The run state with its fault record (R38, R44). -/
  run : RunState
  /-- IR, the opcode byte a step has fetched; none outside a step (R42; log entry 8). -/
  ir : Option Byte
  /-- The byte at pc+1, when the instruction has it; none outside a step (R42; log entry 8). -/
  opA : Option Byte
  /-- The byte at pc+2, when the instruction has it; none outside a step (R42; log entry 8). -/
  opB : Option Byte
  /-- The output history, oldest first (R43). -/
  out : List Byte
deriving DecidableEq, Repr

/-- The machine right after reset, before any load (10_state.md R45, 70_reset_and_hazards.md R210). -/
def State.reset : State where
  mem := []
  x := (Vector.replicate 8 Config.regReset).set Config.spIndex Config.spReset
  pc := 0
  fl := Config.flReset
  run := .running
  ir := none
  opA := none
  opB := none
  out := []

end Sys2Proof.Machine
end

