-- ==== Sys2Proof/Machine/Ops.lean ====
section
/-! DEFINITION. The named operations over memory, registers, the stack pointer, the pc and the output history, and
taking a fault. -/

namespace Sys2Proof.Machine

/-! ### Memory cells -/

/-- The cells of `m` rise strictly from `low` on, lie in the address space, and none holds the fill value. -/
def Memory.wfFrom (low : Nat) : Memory → Bool
  | [] => true
  | (addr, byte) :: rest =>
    decide (low ≤ addr) && decide (addr < Config.memSize) && (byte != Config.memFill) && Memory.wfFrom (addr + 1) rest

/-- The canonical form of memory: equal memories are equal lists. -/
def Memory.wf (m : Memory) : Bool := Memory.wfFrom 0 m

/-- The byte of a cell; a cell that is not listed holds the fill value (20_memory.md R50; log entry 3). -/
def Memory.get (a : Nat) : Memory → Byte
  | [] => Config.memFill
  | (addr, byte) :: rest => if addr = a then byte else Memory.get a rest

/-- Set one cell, keeping the canonical form. -/
def Memory.put (a : Nat) (v : Byte) : Memory → Memory
  | [] => if v = Config.memFill then [] else [(a, v)]
  | (addr, byte) :: rest =>
    if addr < a then (addr, byte) :: Memory.put a v rest
    else if addr = a then (if v = Config.memFill then rest else (a, v) :: rest)
    else if v = Config.memFill then (addr, byte) :: rest
    else (a, v) :: (addr, byte) :: rest

/-- Set the cells from address `a` upward to the bytes of a list; bytes that would lie past 255 have no cell. -/
def Memory.putBytes (a : Nat) : List Byte → Memory → Memory
  | [], m => m
  | v :: rest, m => Memory.putBytes (a + 1) rest (if a < Config.memSize then m.put a v else m)

/-! ### The memory primitives -/

/-- An address outside 0..255 (20_memory.md R52, R53, R54). -/
def outOfRange (addr : Int) : Bool := decide (addr < 0) || decide (255 < addr)

/-- `MemRead(addr, 1)` (20_memory.md R52). -/
def memRead (s : State) (addr : Int) : Except Fault Byte :=
  if outOfRange addr then .error (.memoryOutOfBounds addr) else .ok (s.mem.get addr.toNat)

/-- `MemWrite(addr, 1, v)` (20_memory.md R53). -/
def memWrite (s : State) (addr : Int) (v : Byte) : Except Fault State :=
  if outOfRange addr then .error (.memoryOutOfBounds addr) else .ok { s with mem := s.mem.put addr.toNat v }

/-- The byte at a cell, as an accessor reads it (10_state.md R48): no check, no fault. -/
def State.readByte (s : State) (a : Nat) : Byte := s.mem.get a

/-! ### The register file -/

/-- `x[i]` (00_scope.md R16). No register is hard-wired (10_state.md R25). -/
def State.getReg (s : State) (i : Fin 8) : Byte := s.x[i]

/-- `x[i] <- v` (00_scope.md R16). -/
def State.setReg (s : State) (i : Fin 8) (v : Byte) : State := { s with x := s.x.set i v }

/-- SP is another name for x[7] (00_scope.md R16, 10_state.md R22). -/
def State.sp (s : State) : Byte := s.getReg Config.spIndex

/-- Set the stack pointer. -/
def State.setSp (s : State) (v : Byte) : State := s.setReg Config.spIndex v

/-! ### The stack pointer engine -/

/-- The first half of a push: "decrement SP", which raises MemoryOutOfBounds(-1) when SP = 0 (42_stack.md R141, R143). -/
def decSp (s : State) : Except Fault State :=
  if s.sp.toNat = 0 then .error (.memoryOutOfBounds (-1))
  else .ok (s.setSp (BitVec.ofNat 8 (s.sp.toNat - 1)))

/-- The second half of a push: "then write" at the new SP (42_stack.md R141). -/
def storeAtSp (s : State) (v : Byte) : Except Fault State := memWrite s (s.sp.toNat : Int) v

/-- SP set to `base + 1`, which raises MemoryOutOfBounds when that leaves 0..255 (42_stack.md R142, R143). POP gives
as `base` the popped byte when its destination is R7 (R145), else SP. -/
def setSpAfter (s : State) (base : Byte) : Except Fault State :=
  if 255 < base.toNat + 1 then .error (.memoryOutOfBounds ((base.toNat + 1 : Nat) : Int))
  else .ok (s.setSp (BitVec.ofNat 8 (base.toNat + 1)))

/-- `pop()`: "read, then increment SP" (42_stack.md R142). -/
def popByte (s : State) : Except Fault (Byte × State) := do
  let v ← memRead s (s.sp.toNat : Int)
  let t ← setSpAfter s s.sp
  return (v, t)

/-! ### The pc, the run state, the output history -/

/-- `pc <- t` for a target that a register or a popped byte gives (43_control_transfer.md R160). -/
def State.jumpTo (s : State) (target : Byte) : State := { s with pc := target.toNat }

/-- The sequential advance over an instruction with `n` operand bytes, without wrap (30_encoding.md R84, 10_state.md R28). -/
def State.advance (s : State) (n : Nat) : State := { s with pc := s.pc + 1 + n }

/-- `halt` (00_scope.md R16). -/
def State.halt (s : State) : State := { s with run := .halted }

/-- `emit(v)` (00_scope.md R16, 60_exceptions.md R196). -/
def State.emit (s : State) (v : Byte) : State := { s with out := s.out ++ [v] }

/-- The return address of a CALL, pc + 2, which raises MemoryOutOfBounds when it does not fit in a byte
(43_control_transfer.md R161). -/
def returnAddress (s : State) : Except Fault Byte :=
  if 255 < s.pc + 2 then .error (.memoryOutOfBounds ((s.pc + 2 : Nat) : Int)) else .ok (BitVec.ofNat 8 (s.pc + 2))

/-! ### Taking a fault -/

/-- `raise K(info)`: the run state becomes Faulted((K, pc, info)) and nothing else is written (60_exceptions.md R181,
R190, 10_state.md R44). There is no return from a fault (R191). -/
def State.raise (s : State) (f : Fault) : State := { s with run := .faulted ⟨f, s.pc⟩ }

/-- The end of an instruction's rule: the state it computed, or, when it raised a fault, the state it STARTED from
with the fault taken, so that a faulting step commits nothing of its own (00_scope.md R17). -/
def State.commit (s : State) : Except Fault State → Host.Outcome State Fault Refusal
  | .ok t => .next t
  | .error f => .next (s.raise f)

/-- The code of a fault kind (60_exceptions.md R187). -/
def Fault.code : Fault → Nat
  | .unknownInstruction _ => 1
  | .memoryOutOfBounds _ => 2
  | .registerOutOfBounds _ => 3
  | .internalFault => 4

/-! ### The step's latches -/

/-- The latches exist only within a step (10_state.md R42; log entry 8). -/
def State.clearLatches (s : State) : State := { s with ir := none, opA := none, opB := none }

/-- The end of a step: what the instruction left, with the latches gone. -/
def endStep : Host.Outcome State Fault Refusal → Host.Outcome State Fault Refusal
  | .next t => .next t.clearLatches
  | .fault f => .fault f
  | .refused r => .refused r

end Sys2Proof.Machine
end

