-- ==== Sys2Proof/Machine/Flags.lean ====
section
/-! DEFINITION. The flags byte FL: its bits and the one computation that writes it. -/

namespace Sys2Proof.Machine

/-- E = FL[0], "Equal" (10_state.md R31). -/
def flagE (fl : Byte) : Bool := fl.getLsbD 0

/-- G = FL[1], "Greater-than" (10_state.md R31). -/
def flagG (fl : Byte) : Bool := fl.getLsbD 1

/-- L = FL[2], "Less-than" (10_state.md R31). -/
def flagL (fl : Byte) : Bool := fl.getLsbD 2

/-- The whole FL byte that a comparison of the unsigned values `u` and `v` gives (41_alu.md R126, R127). -/
def compareFlags (u v : Byte) : Byte :=
  if u.toNat = v.toNat then 0b00000001
  else if v.toNat < u.toNat then 0b00000010
  else 0b00000100

end Sys2Proof.Machine
end

