-- ==== Sys2Proof/Machine/Operands.lean ====
section
/-! DEFINITION. The operand forms. A register operand is an index byte (`chkreg`), and the immediate of LDI is its
operand byte as it stands (30_encoding.md R75: "There is no other operand form"). -/

namespace Sys2Proof.Machine

/-- `chkreg(i)`: the register an operand byte names; the whole byte is checked, no bit is masked off
(10_state.md R24, 30_encoding.md R75). -/
def chkreg (i : Byte) : Except Fault (Fin 8) :=
  if h : i.toNat < 8 then .ok ⟨i.toNat, h⟩ else .error (.registerOutOfBounds i)

/-- `chkreg(a); chkreg(b)`, `a` first (41_alu.md R124). -/
def chkregs (a b : Byte) : Except Fault (Fin 8 × Fin 8) := do
  let ra ← chkreg a
  let rb ← chkreg b
  return (ra, rb)

/-- The value of the immediate operand: the byte unchanged (30_encoding.md R75, 40_halt_load_print.md R101). -/
def immediate (b : Byte) : Byte := b

end Sys2Proof.Machine
end

