-- ==== Sys2Proof/Machine/Alu.lean ====
section
/-! DEFINITION. The ALU unit and MUL, ADD, CMP (41_alu.md). -/

namespace Sys2Proof.Machine

/-- The ALU's operation tags (R121), and `other`, which stands for every other tag: reaching the ALU with one is
an internal fault (R122). No instruction selects it. -/
inductive AluTag where
  | mul | add | cmp | other
deriving DecidableEq, Repr

/-- (u * v) mod 256 on the unsigned values (R123, R124). -/
def mulMod (u v : Byte) : Byte := BitVec.ofNat 8 ((u.toNat * v.toNat) % 256)

/-- (u + v) mod 256 on the unsigned values (R123, R125). -/
def addMod (u v : Byte) : Byte := BitVec.ofNat 8 ((u.toNat + v.toNat) % 256)

/-- The ALU sub-operation: it reads x[a] and x[b] and makes one write, of x[a] (MUL, ADD) or of FL (CMP) (R120). -/
def alu (tag : AluTag) (a b : Fin 8) (s : State) : Except Fault State :=
  match tag with
  | .mul => .ok (s.setReg a (mulMod (s.getReg a) (s.getReg b)))
  | .add => .ok (s.setReg a (addMod (s.getReg a) (s.getReg b)))
  | .cmp => .ok { s with fl := compareFlags (s.getReg a) (s.getReg b) }
  | .other => .error .internalFault

/-- The common rule of the instructions that select the ALU: check a, then b, operate, advance (R124-R126). -/
def aluRule (tag : AluTag) (a b : Byte) (s : State) : Except Fault State := do
  let (ra, rb) ← chkregs a b
  let t ← alu tag ra rb s
  return t.advance 2

/-- MULTIPLY (R124); it selects the tag "MUL" (30_encoding.md R81). -/
def execMul (a b : Byte) (s : State) : Host.Outcome State Fault Refusal := s.commit (aluRule .mul a b s)

/-- ADD (R125); it selects the tag "ADD". -/
def execAdd (a b : Byte) (s : State) : Host.Outcome State Fault Refusal := s.commit (aluRule .add a b s)

/-- COMPARE (R126); it selects the tag "CMP". -/
def execCmp (a b : Byte) (s : State) : Host.Outcome State Fault Refusal := s.commit (aluRule .cmp a b s)

end Sys2Proof.Machine
end

