-- ==== Sys2Proof/Machine/Basic.lean ====
section
/-! DEFINITION. HLT, LDI, PRN (40_halt_load_print.md). -/

namespace Sys2Proof.Machine

/-- HALT (R100). -/
def execHlt (s : State) : Host.Outcome State Fault Refusal :=
  s.commit (.ok (s.halt.advance 0))

/-- LOAD-IMMEDIATE (R101). -/
def execLdi (a imm : Byte) (s : State) : Host.Outcome State Fault Refusal :=
  s.commit do
    let ra ← chkreg a
    return (s.setReg ra (immediate imm)).advance 2

/-- PRINT-REGISTER (R102). -/
def execPrn (a : Byte) (s : State) : Host.Outcome State Fault Refusal :=
  s.commit do
    let ra ← chkreg a
    return (s.emit (s.getReg ra)).advance 1

end Sys2Proof.Machine
end

