-- ==== Sys2Proof/Machine/Control.lean ====
section
/-! DEFINITION. CALL, RET, JMP, JEQ, JNE (43_control_transfer.md). -/

namespace Sys2Proof.Machine

/-- CALL (R161). The SP check comes before the return-address check, and the target is read after the push, so
CALL R7 jumps to the decremented SP (00_scope.md R18). -/
def execCall (a : Byte) (s : State) : Host.Outcome State Fault Refusal :=
  s.commit do
    let ra ← chkreg a
    let t ← decSp s
    let ret ← returnAddress s
    let u ← storeAtSp t ret
    return u.jumpTo (u.getReg ra)

/-- RETURN (R162). -/
def execRet (s : State) : Host.Outcome State Fault Refusal :=
  s.commit do
    let (v, t) ← popByte s
    return t.jumpTo v

/-- JUMP (R163). -/
def execJmp (a : Byte) (s : State) : Host.Outcome State Fault Refusal :=
  s.commit do
    let ra ← chkreg a
    return s.jumpTo (s.getReg ra)

/-- The common rule of the conditional jumps: the index is checked whether or not the jump is taken (R164, R165). -/
def branchRule (taken : Bool) (a : Byte) (s : State) : Except Fault State := do
  let ra ← chkreg a
  return if taken then s.jumpTo (s.getReg ra) else s.advance 1

/-- JUMP-IF-EQUAL (R164). -/
def execJeq (a : Byte) (s : State) : Host.Outcome State Fault Refusal := s.commit (branchRule (flagE s.fl) a s)

/-- JUMP-IF-NOT-EQUAL (R165). -/
def execJne (a : Byte) (s : State) : Host.Outcome State Fault Refusal := s.commit (branchRule (!flagE s.fl) a s)

end Sys2Proof.Machine
end

