-- ==== Sys2Proof/Machine/Stack.lean ====
section
/-! DEFINITION. PUSH and POP (42_stack.md). -/

namespace Sys2Proof.Machine

/-- PUSH (R144). The register is read after the SP update, so PUSH R7 pushes the decremented SP (00_scope.md R18). -/
def execPush (a : Byte) (s : State) : Host.Outcome State Fault Refusal :=
  s.commit do
    let ra ← chkreg a
    let t ← decSp s
    let u ← storeAtSp t (t.getReg ra)
    return u.advance 1

/-- POP (R145). The register write comes before the SP increment, so POP R7 leaves the popped byte plus one in SP;
the increment is range-checked before either write (00_scope.md R17, R18). -/
def execPop (a : Byte) (s : State) : Host.Outcome State Fault Refusal :=
  s.commit do
    let ra ← chkreg a
    let v ← memRead s (s.sp.toNat : Int)
    let t := s.setReg ra v
    let u ← setSpAfter t t.sp
    return u.advance 1

end Sys2Proof.Machine
end

