-- ==== Sys2Proof/Syntax.lean ====
section
/-! DEFINITION. The thirteen instructions, one constructor per row of spec/opcode_table.json. -/

namespace Sys2Proof

/-- An instruction as the step cycle hands it to execution (30_encoding.md R82): its operands are the operand
BYTES `a` (at pc+1) and `b` (at pc+2). A register operand is the whole byte, unmasked, and an index above 7 is an
instruction that decodes and then faults (R75), so the index is not a `Fin 8` here. -/
inductive Instr where
  /-- HLT, format N (40_halt_load_print.md R100). -/
  | hlt
  /-- LDI, format RI: `a` a register index, `imm` the immediate byte (R101). -/
  | ldi (a imm : Byte)
  /-- PRN, format R (R102). -/
  | prn (a : Byte)
  /-- MUL, format RR (41_alu.md R124). -/
  | mul (a b : Byte)
  /-- ADD, format RR (R125). -/
  | add (a b : Byte)
  /-- CMP, format RR (R126). -/
  | cmp (a b : Byte)
  /-- PUSH, format R (42_stack.md R144). -/
  | push (a : Byte)
  /-- POP, format R (R145). -/
  | pop (a : Byte)
  /-- CALL, format R (43_control_transfer.md R161). -/
  | call (a : Byte)
  /-- RET, format N (R162). -/
  | ret
  /-- JMP, format R (R163). -/
  | jmp (a : Byte)
  /-- JEQ, format R (R164). -/
  | jeq (a : Byte)
  /-- JNE, format R (R165). -/
  | jne (a : Byte)
deriving DecidableEq, Repr

end Sys2Proof
end

