-- ==== Sys2Proof/WellFormed.lean ====
section
/-! DEFINITION. Which instructions name only registers that exist. -/

namespace Sys2Proof

/-- A register operand byte is valid when it is 0..7 (10_state.md R24, 30_encoding.md R75). -/
def validIndex (a : Byte) : Bool := a.toNat < 8

/-- Every register operand is a valid index. The immediate of LDI is unrestricted (R101). An ill-formed
instruction still decodes and executes: it raises RegisterOutOfBounds (60_exceptions.md R185). -/
def Instr.wellFormed : Instr → Bool
  | .hlt => true
  | .ldi a _ => validIndex a
  | .prn a => validIndex a
  | .mul a b => validIndex a && validIndex b
  | .add a b => validIndex a && validIndex b
  | .cmp a b => validIndex a && validIndex b
  | .push a => validIndex a
  | .pop a => validIndex a
  | .call a => validIndex a
  | .ret => true
  | .jmp a => validIndex a
  | .jeq a => validIndex a
  | .jne a => validIndex a

end Sys2Proof
end

