-- ==== Sys2Proof/Decode.lean ====
section
/-! DEFINITION. The opcode map, the decoder from bytes (total, rejecting by name), the encoder, and the
host's entry `decodeTableWord`. -/

namespace Sys2Proof

/-- The closed opcode set of the dispatch (30_encoding.md R76, R80). -/
inductive Opcode where
  | hlt | ldi | prn | mul | add | cmp | push | pop | call | ret | jmp | jeq | jne
deriving DecidableEq, Repr

/-- The thirteen opcodes, in the order of 30_encoding.md R76. -/
def Opcode.all : List Opcode :=
  [.hlt, .ldi, .prn, .mul, .add, .cmp, .push, .pop, .call, .ret, .jmp, .jeq, .jne]

/-- OPCODE_OF: the opcode byte of each instruction, the table of 30_encoding.md R76. HLT's value is the
source's; the other twelve are the spec's decision D1 (log entry 2). -/
def opcodeOf : Opcode → Byte
  | .hlt => 0x01
  | .ldi => 0x82
  | .prn => 0x47
  | .mul => 0xA2
  | .add => 0xA0
  | .cmp => 0xA7
  | .push => 0x45
  | .pop => 0x46
  | .call => 0x50
  | .ret => 0x11
  | .jmp => 0x54
  | .jeq => 0x55
  | .jne => 0x56

/-- The operand count by table: the "count" column of 30_encoding.md R76. -/
def Opcode.operandCount : Opcode → Nat
  | .hlt => 0
  | .ldi => 2
  | .prn => 1
  | .mul => 2
  | .add => 2
  | .cmp => 2
  | .push => 1
  | .pop => 1
  | .call => 1
  | .ret => 0
  | .jmp => 1
  | .jeq => 1
  | .jne => 1

/-- The operand-count field, bits [7:6] of an opcode byte (30_encoding.md R72). -/
def countField (b : Byte) : Nat := (b.extractLsb' 6 2).toNat

/-- Decoding matches the WHOLE opcode byte against the thirteen values; any other byte is unknown
(30_encoding.md R77). -/
def decodeOpcode (b : Byte) : Option Opcode := Opcode.all.find? (fun op => opcodeOf op == b)

/-- The instruction of an opcode with the operand bytes `a` and `b`; an opcode ignores the operand bytes it does
not have (30_encoding.md R82: "perform the rule of IR with a = opA, b = opB"). -/
def Opcode.assemble (op : Opcode) (a b : Byte) : Instr :=
  match op with
  | .hlt => .hlt
  | .ldi => .ldi a b
  | .prn => .prn a
  | .mul => .mul a b
  | .add => .add a b
  | .cmp => .cmp a b
  | .push => .push a
  | .pop => .pop a
  | .call => .call a
  | .ret => .ret
  | .jmp => .jmp a
  | .jeq => .jeq a
  | .jne => .jne a

/-- Why a sequence of bytes holds no instruction at its head. -/
inductive DecodeError where
  /-- There is no opcode byte. -/
  | noOpcodeByte
  /-- The opcode byte is not one of the thirteen (30_encoding.md R77). -/
  | unknownOpcode (b : Byte)
  /-- The opcode is known and fewer operand bytes follow than it has. -/
  | missingOperand (op : Opcode)
deriving DecidableEq, Repr

/-- Read one instruction from the head of a byte sequence; the bytes after it come back (30_encoding.md R70, R71). -/
def decode : List Byte → Except DecodeError (Instr × List Byte)
  | [] => .error .noOpcodeByte
  | byte0 :: rest =>
    match decodeOpcode byte0 with
    | none => .error (.unknownOpcode byte0)
    | some op =>
      match op.operandCount, rest with
      | 0, rest => .ok (op.assemble 0 0, rest)
      | 1, a :: rest => .ok (op.assemble a 0, rest)
      | 2, a :: b :: rest => .ok (op.assemble a b, rest)
      | _, _ => .error (.missingOperand op)

/-- The opcode of an instruction. -/
def Instr.opcode : Instr → Opcode
  | .hlt => .hlt
  | .ldi _ _ => .ldi
  | .prn _ => .prn
  | .mul _ _ => .mul
  | .add _ _ => .add
  | .cmp _ _ => .cmp
  | .push _ => .push
  | .pop _ => .pop
  | .call _ => .call
  | .ret => .ret
  | .jmp _ => .jmp
  | .jeq _ => .jeq
  | .jne _ => .jne

/-- The operand bytes of an instruction, at ascending addresses (30_encoding.md R74, 20_memory.md R56). -/
def Instr.operands : Instr → List Byte
  | .hlt => []
  | .ldi a imm => [a, imm]
  | .prn a => [a]
  | .mul a b => [a, b]
  | .add a b => [a, b]
  | .cmp a b => [a, b]
  | .push a => [a]
  | .pop a => [a]
  | .call a => [a]
  | .ret => []
  | .jmp a => [a]
  | .jeq a => [a]
  | .jne a => [a]

/-- The bytes of an instruction: its opcode byte, then its operand bytes (30_encoding.md R70, R74). -/
def encode (i : Instr) : List Byte := opcodeOf i.opcode :: i.operands

/-- The longest instruction's three bytes, least significant byte first, of the low `nbits` bits of `w`: an instruction
as opcode_table.json numbers its bits, laid out from the lowest address up. -/
def wordBytes (nbits w : Nat) : List Byte :=
  let v := w % 2 ^ nbits
  [BitVec.ofNat 8 v, BitVec.ofNat 8 (v / 256), BitVec.ofNat 8 (v / 65536)]

/-- What the decoder reads from an instruction whose low `nbits` bits are `w` and whose other bits are 0. -/
def decodeTableWord (nbits w : Nat) : Option Instr :=
  match decode (wordBytes nbits w) with
  | .ok (i, _) => some i
  | .error _ => none

end Sys2Proof
end

