-- ==== Sys2Proof/Machine/Fetch.lean ====
section
/-! DEFINITION. The fetch and decode phases of the step cycle (30_encoding.md R82). -/

namespace Sys2Proof.Machine

/-- Latch the opcode byte in IR (10_state.md R42). -/
def State.latchIr (s : State) (b : Byte) : State := { s with ir := some b }

/-- Latch the byte at pc+1 (10_state.md R42). -/
def State.latchA (s : State) (b : Byte) : State := { s with opA := some b }

/-- Latch the byte at pc+2 (10_state.md R42). -/
def State.latchB (s : State) (b : Byte) : State := { s with opB := some b }

/-- Read the opcode byte, decode it, then read as many operand bytes as it has: an unknown byte faults before any
operand is fetched (30_encoding.md R82, R83; 60_exceptions.md R189). The state that comes back holds the latches
and is otherwise the one the step started with. -/
def fetch (s : State) : Except Fault (Instr × State) := do
  let ir ← memRead s (s.pc : Int)
  let t := s.clearLatches.latchIr ir
  match decodeOpcode ir with
  | none => .error (.unknownInstruction ir)
  | some op =>
    match op.operandCount with
    | 0 => return (op.assemble 0 0, t)
    | 1 =>
      let a ← memRead s ((s.pc + 1 : Nat) : Int)
      return (op.assemble a 0, t.latchA a)
    | _ =>
      let a ← memRead s ((s.pc + 1 : Nat) : Int)
      let b ← memRead s ((s.pc + 2 : Nat) : Int)
      return (op.assemble a b, (t.latchA a).latchB b)

/-- The bytes a fetch at the pc can reach: those at pc, pc+1 and pc+2 whose address is at most 255. -/
def State.codeBytes (s : State) : List Byte :=
  ([s.pc, s.pc + 1, s.pc + 2].filter (fun a => decide (a < Config.memSize))).map s.readByte

/-- The state with the latches an instruction's fetch leaves (10_state.md R42): its opcode byte in IR, and its operand
bytes, where it has them, in opA and opB. -/
def State.latched (s : State) (i : Instr) : State :=
  { s with ir := some (opcodeOf i.opcode), opA := i.operands[0]?, opB := i.operands[1]? }

end Sys2Proof.Machine
end

