-- ==== Sys2Proof/Machine/Step.lean ====
section
/-! DEFINITION. One `step()` (30_encoding.md R82, R88), and the placing of an instruction where it fetches. -/

namespace Sys2Proof.Machine

/-- One step. In Running: fetch and decode, then the instruction's rule; a fault of either phase is taken and leaves
nothing else changed (R82, R86). In Halted and Faulted: nothing changes (R88). -/
def step (s : State) : Host.Outcome State Fault Refusal :=
  match s.run with
  | .running =>
    match fetch s with
    | .ok (i, t) => endStep (exec i t)
    | .error f => endStep (.next (s.raise f))
  | .halted => .next s
  | .faulted _ => .next s

/-- `s` with the instruction of the low `nbits` bits of `w` stored at the pc, and Running, so that the next step fetches
and runs it. It stands for the load of a program (log entry 11). -/
def State.withFetchWord (s : State) (nbits w : Nat) : State :=
  { s with run := .running, mem := s.mem.putBytes s.pc (wordBytes nbits w) }

end Sys2Proof.Machine
end

