-- ==== Sys2Proof/Machine/Interface.lean ====
section
/-! DEFINITION. The transaction-level interface of the core (10_state.md R46): load, step with its result, run, the
diagnostic port and the rendering of the output. -/

namespace Sys2Proof.Machine

/-! ### Step results and runs -/

/-- What `step()` and `run()` return (10_state.md R47). -/
inductive StepResult where
  | ok
  | halted
  | faulted (record : FaultRecord)
deriving DecidableEq, Repr

/-- The result a step returns is read off the run state it leaves (10_state.md R47, 30_encoding.md R82, R88). -/
def State.result (s : State) : StepResult :=
  match s.run with
  | .running => .ok
  | .halted => .halted
  | .faulted f => .faulted f

/-- `run()` with the bound a host supplies: step until the result is not Ok. `none` says that `bound` steps did not
end the run; the machine itself has no bound, and its run may be infinite (30_encoding.md R87,
70_reset_and_hazards.md R225). -/
def runSteps : Nat → State → Option (State × StepResult)
  | 0, _ => none
  | bound + 1, s =>
    match step s with
    | .next t => if t.result = .ok then runSteps bound t else some (t, t.result)
    | .fault _ => none
    | .refused _ => none

/-! ### The image load -/

/-- The effect of `load(image)`: the image's bytes from address 0 upward; registers, pc, FL and run state are not
touched (70_reset_and_hazards.md R215, R216). -/
def State.load (s : State) (image : List Byte) : State := { s with mem := s.mem.putBytes 0 image }

/-- A machine as the host drives it: `loadOpen` says that neither a load nor a step has been made since its
construction (70_reset_and_hazards.md R217; log entry 9). -/
structure Session where
  machine : State
  loadOpen : Bool
deriving DecidableEq, Repr

/-- Machine construction is reset (70_reset_and_hazards.md R210). -/
def Session.construct : Session := ⟨State.reset, true⟩

/-- `load(image)`: accepted once, before the first step, with at most 256 bytes; refused otherwise (R216, R217). -/
def Session.load (h : Session) (image : List Byte) : Host.Outcome Session Fault Refusal :=
  if !h.loadOpen then .refused .loadNotAccepted
  else if Config.imageMax < image.length then .refused .imageTooLong
  else .next ⟨h.machine.load image, false⟩

/-- `step()` through the interface: it closes the load (R217) and returns its result (10_state.md R47). -/
def Session.step (h : Session) : Host.Outcome (Session × StepResult) Fault Refusal :=
  match Machine.step h.machine with
  | .next t => .next (⟨t, false⟩, t.result)
  | .fault f => .fault f
  | .refused r => .refused r

/-! ### The diagnostic port and the output -/

/-- What the diagnostic port reads: the pc, the bytes at pc, pc+1 and pc+2, absent above address 255, and the eight
registers (60_exceptions.md R198). -/
structure Diagnosis where
  pc : Nat
  bytes : List (Option Byte)
  regs : List Byte
deriving DecidableEq, Repr

/-- What the port reads: it observes and changes nothing (60_exceptions.md R198). -/
def diagnose (s : State) : Diagnosis where
  pc := s.pc
  bytes := [s.pc, s.pc + 1, s.pc + 2].map (fun a => if a < Config.memSize then some (s.readByte a) else none)
  regs := s.x.toList

/-- A hexadecimal digit, upper-case as the spec writes its own bytes (log entry 12). -/
def hexDigit (n : Nat) : Char :=
  (['0', '1', '2', '3', '4', '5', '6', '7', '8', '9', 'A', 'B', 'C', 'D', 'E', 'F'][n]?).getD '0'

/-- A byte as two hexadecimal digits, the high one first (60_exceptions.md R198). -/
def hexByte (b : Byte) : List Char := [hexDigit (b.toNat / 16), hexDigit (b.toNat % 16)]

/-- The pc in two digits per byte: one byte, or, past 255, two bytes (60_exceptions.md R198, 10_state.md R28; log entry 12). -/
def hexPc (pc : Nat) : List Char :=
  if pc < Config.memSize then hexByte (BitVec.ofNat 8 pc)
  else hexByte (BitVec.ofNat 8 (pc / 256)) ++ hexByte (BitVec.ofNat 8 pc)

/-- What the diagnostic port renders, field by field: the texts of the pc, of the three bytes (none for a byte that is
shown as absent) and of the eight registers. How the fields stand in a line is not the spec's (60_exceptions.md R198). -/
structure DiagnosisText where
  pc : List Char
  bytes : List (Option (List Char))
  regs : List (List Char)
deriving DecidableEq, Repr

/-- Each value in two hexadecimal digits per byte (60_exceptions.md R198). -/
def Diagnosis.render (d : Diagnosis) : DiagnosisText where
  pc := hexPc d.pc
  bytes := d.bytes.map (fun b => b.map hexByte)
  regs := d.regs.map hexByte

/-- The diagnostic port: "renders current PC, the next three Memory bytes, and all eight register values in a fixed
two-hex-digit-per-byte format" (60_exceptions.md R198). -/
def diagnosticPort (s : State) : DiagnosisText := (diagnose s).render

/-- The host's rendering of one emitted value: its decimal digits and a line terminator (60_exceptions.md R197;
log entry 12). -/
def renderValue (v : Byte) : List Char := Nat.toDigits 10 v.toNat ++ ['\n']

/-- The host's rendering of the output history, oldest value first (60_exceptions.md R196, R197). -/
def renderOut (s : State) : List Char := s.out.flatMap renderValue

/-- The host's exit code for a fault of the core (60_exceptions.md R192; log entry 10). -/
def exitCodeOfFault : Fault → Nat
  | .unknownInstruction _ => 1
  | .memoryOutOfBounds _ => Config.exitCodeOob
  | .registerOutOfBounds _ => Config.exitCodeOob
  | .internalFault => Config.exitCodeOob

end Sys2Proof.Machine
end

