-- ==== Sys2Proof/Machine/Loader.lean ====
section
/-! DEFINITION. The collaborators around the core, as far as the spec gives them: the program-image text format
(70_reset_and_hazards.md R218), the host's faults (60_exceptions.md R182) and the boot order (R213). They are outside
the core (00_scope.md R5). -/

namespace Sys2Proof.Machine

/-- The faults outside the core (60_exceptions.md R182). -/
inductive HostFault where
  /-- Wrong invocation arguments; the machine is not constructed. -/
  | usage
  /-- The image file is missing or unreadable; reported with its name. -/
  | fileNotFound (filename : List Char)
  /-- A line's content is not a binary literal of a byte; reported with the offending text. -/
  | invalidLiteral (text : List Char)
  /-- The image has more than 256 bytes; reported with the line that would go to address 256. -/
  | imageTooLarge (line : List Char)
deriving DecidableEq, Repr

/-- The characters that count as whitespace (log entry 13). -/
def isSpace (c : Char) : Bool := c.isWhitespace

/-- A blank line is empty or holds only whitespace (R218 point 1). -/
def isBlank (line : List Char) : Bool := line.all isSpace

/-- The portion before the first `#` (R218 point 2). -/
def beforeHash (line : List Char) : List Char := line.takeWhile (· != '#')

/-- The text without the whitespace around it (R218 point 2). -/
def trimSpaces (text : List Char) : List Char := ((text.dropWhile isSpace).reverse.dropWhile isSpace).reverse

/-- The value of a sequence of binary digits, the first the most significant. -/
def binaryValue (digits : List Char) : Nat := digits.foldl (fun v c => 2 * v + (if c = '1' then 1 else 0)) 0

/-- The byte of a trimmed literal: one or more characters, each `0` or `1`, with value 0..255 (R218 point 3). -/
def parseLiteral (text : List Char) : Option Byte :=
  if text ≠ [] ∧ text.all (fun c => c == '0' || c == '1') = true ∧ binaryValue text ≤ 255 then
    some (BitVec.ofNat 8 (binaryValue text))
  else none

/-- What one line of the image file is. -/
inductive ImageLine where
  /-- A blank line or one whose first character is `#`. -/
  | skipped
  /-- One memory cell. -/
  | cell (value : Byte)
  /-- A line that is neither; the offending text. -/
  | invalid (text : List Char)
deriving DecidableEq, Repr

/-- Read one line (R218 points 1 to 3). -/
def readLine (line : List Char) : ImageLine :=
  if isBlank line || line.head? == some '#' then .skipped
  else
    match parseLiteral (trimSpaces (beforeHash line)) with
    | some v => .cell v
    | none => .invalid (trimSpaces (beforeHash line))

/-- Read the lines in order, the next literal going to address `address`; the first fault ends the load, and no part of
the image is kept (R218: "loading is all-or-nothing"). -/
def parseLines (address : Nat) : List (List Char) → Except HostFault (List Byte)
  | [] => .ok []
  | line :: rest =>
    match readLine line with
    | .skipped => parseLines address rest
    | .invalid text => .error (.invalidLiteral text)
    | .cell v =>
      if Config.imageMax ≤ address then .error (.imageTooLarge line)
      else
        match parseLines (address + 1) rest with
        | .ok image => .ok (v :: image)
        | .error f => .error f

/-- The image of a file's lines (R218). -/
def parseImage (lines : List (List Char)) : Except HostFault (List Byte) := parseLines 0 lines

/-- The boot order up to the first step (R213): the command line, the construction, the reading of the file
(`none` when it is missing or unreadable), the one load. -/
def boot (argumentsOk : Bool) (filename : List Char) (file : Option (List (List Char))) : Except HostFault Session :=
  if !argumentsOk then .error .usage
  else
    match file with
    | none => .error (.fileNotFound filename)
    | some lines =>
      match parseImage lines with
      | .error f => .error f
      | .ok image => .ok ⟨State.reset.load image, false⟩

/-- The host's exit code for its own faults (60_exceptions.md R192; log entry 10). -/
def exitCodeOfHostFault : HostFault → Nat
  | .usage => 1
  | .invalidLiteral _ => 1
  | .fileNotFound _ => 2
  | .imageTooLarge _ => Config.exitCodeImageTooLarge

end Sys2Proof.Machine
end

