-- ==== Sys2Proof/Safety.lean ====
section
/-! DEFINITION. What counts as a safe run, the invariant of the machine, and the tables and the one predicate on texts that
the statements use. -/

namespace Sys2Proof.Machine

/-- FL holds one of four values (10_state.md R35). -/
def legalFlags (fl : Byte) : Bool := fl == 0x00 || fl == 0x01 || fl == 0x02 || fl == 0x04

/-- The info a fault of this kind can carry (60_exceptions.md R183-R187): an unknown byte is none of the opcodes, an
address is 256 or -1, an index is above 7; an internal fault cannot be raised. -/
def legalFault : Fault → Bool
  | .unknownInstruction b => decodeOpcode b == none
  | .memoryOutOfBounds addr => addr == 256 || addr == -1
  | .registerOutOfBounds i => !validIndex i
  | .internalFault => false

/-- A fault record names a fault the core can raise, at the pc the machine still has (60_exceptions.md R190). -/
def legalRun (s : State) : Bool :=
  match s.run with
  | .running => true
  | .halted => true
  | .faulted f => legalFault f.kind && f.pc == s.pc

/-- The invariant of every reachable state between steps: memory in canonical form, pc at most 256 (10_state.md R28),
FL legal (R35), the fault record legal, no latch held (R42). -/
def State.Inv (s : State) : Prop :=
  s.mem.wf = true ∧ s.pc ≤ 256 ∧ legalFlags s.fl = true ∧ legalRun s = true ∧
    s.ir = none ∧ s.opA = none ∧ s.opB = none

/-- A run is safe as long as it has not faulted (60_exceptions.md R180). -/
def State.Safe (s : State) : Prop := ∀ f, s.run ≠ .faulted f

/-- The states a sequence of steps reaches. -/
inductive Steps : State → State → Prop where
  | refl (s : State) : Steps s s
  | more {s t u : State} : step s = .next t → Steps t u → Steps s u

/-- The registers an instruction writes (10_state.md R23, column "writes"), as index bytes. -/
def writtenRegs : Instr → List Byte
  | .hlt => []
  | .ldi a _ => [a]
  | .prn _ => []
  | .mul a _ => [a]
  | .add a _ => [a]
  | .cmp _ _ => []
  | .push _ => [7]
  | .pop a => [a, 7]
  | .call _ => [7]
  | .ret => [7]
  | .jmp _ => []
  | .jeq _ => []
  | .jne _ => []

/-- The first operand byte that names no register, in the order the checks run, `a` before `b` (60_exceptions.md R189). -/
def firstBadIndex : Instr → Option Byte
  | .hlt => none
  | .ldi a _ => [a].find? (!validIndex ·)
  | .prn a => [a].find? (!validIndex ·)
  | .mul a b => [a, b].find? (!validIndex ·)
  | .add a b => [a, b].find? (!validIndex ·)
  | .cmp a b => [a, b].find? (!validIndex ·)
  | .push a => [a].find? (!validIndex ·)
  | .pop a => [a].find? (!validIndex ·)
  | .call a => [a].find? (!validIndex ·)
  | .ret => none
  | .jmp a => [a].find? (!validIndex ·)
  | .jeq a => [a].find? (!validIndex ·)
  | .jne a => [a].find? (!validIndex ·)

/-- A text of two hexadecimal digits that reads back as `v`, the high digit first (60_exceptions.md R198). -/
def ShowsByte (text : List Char) (v : Nat) : Prop :=
  let digits := "0123456789ABCDEF".toList
  ∃ hi ∈ digits, ∃ lo ∈ digits, text = [hi, lo] ∧ digits.idxOf hi * 16 + digits.idxOf lo = v

end Sys2Proof.Machine
end

