-- ==== Sys2Proof/Certificates/Slice0/Obligations.lean ====
section
/-! DEFINITION. The statements for the provers. Each docstring names the rules of spec/ it rests on and, where it rests
on a decision of the spec itself (D<n> of 92_eei_decisions.md) or on a choice of the model, the log entry. -/

open Sys2Proof Sys2Proof.Machine

/-! ### Encoding -/

/-- Words written out from the formats of R74 and the opcode map of R76 decode to the instructions they stand for. The
byte values other than HLT's are the spec's decision D1 (log entry 2). -/
def Obligations.SpecWordsDecode : Prop :=
  decode [0x01] = .ok (.hlt, []) ∧
  decode [0x82, 0x00, 0x08] = .ok (.ldi 0 8, []) ∧
  decode [0x47, 0x03, 0x01] = .ok (.prn 3, [0x01]) ∧
  decode [0xA2, 0x00, 0x01] = .ok (.mul 0 1, []) ∧
  decode [0xA7, 0x09, 0x08] = .ok (.cmp 9 8, []) ∧
  decode [0x46, 0x07] = .ok (.pop 7, []) ∧
  decode [0x50, 0x01] = .ok (.call 1, []) ∧
  decode [0x11, 0x50] = .ok (.ret, [0x50]) ∧
  decode [0x56, 0x03] = .ok (.jne 3, []) ∧
  decode [0x00, 0x01] = .error (.unknownOpcode 0x00) ∧
  decode [0x82, 0x00] = .error (.missingOperand .ldi)

/-- Decoding and encoding agree in both directions: a byte sequence decodes to an instruction and a rest exactly when it is
that instruction's encoding followed by that rest, for every instruction at every value of every operand byte
(30_encoding.md R70, R74, R75, R77, R80). -/
def Obligations.DecodeAndEncodeAgree : Prop :=
  ∀ (bytes rest : List Byte) (i : Instr), decode bytes = .ok (i, rest) ↔ bytes = encode i ++ rest

/-- The operand count by table and by bits [7:6] agree for every opcode, and a byte whose bits [7:6] are 3 is no opcode
(30_encoding.md R72, R79; the byte values are the spec's decision D1, log entry 2). -/
def Obligations.OperandCountStandsInHighBits : Prop :=
  (∀ op : Opcode, op.operandCount = countField (opcodeOf op)) ∧
  (∀ b : Byte, countField b = 3 → decodeOpcode b = none)

/-! ### The step cycle -/

/-- A step in Running whose bytes at the pc decode to `i` is `exec i` on the state with the latches of that fetch, after
which the latches are gone (30_encoding.md R82). The pc moves inside `exec`, by each instruction's own rule. -/
def Obligations.StepRunsDecodedInstruction : Prop :=
  ∀ (s : State) (i : Instr) (rest : List Byte), s.run = .running → decode s.codeBytes = .ok (i, rest) →
    ∃ t, exec i { s with ir := some (opcodeOf i.opcode), opA := i.operands[0]?, opB := i.operands[1]? } = .next t ∧
      step s = .next { t with ir := none, opA := none, opB := none }

/-- An opcode byte other than the thirteen of R76 makes the step take UnknownInstruction with the byte and the pc, and
change nothing else (30_encoding.md R77, 60_exceptions.md R183). The byte values are the spec's decision D1, and that
the fault commits nothing is its D11 (log entries 2 and 4). -/
def Obligations.UnknownOpcodeFaults : Prop :=
  ∀ s : State, s.run = .running → s.pc ≤ 255 →
    s.readByte s.pc ∉ ([0x01, 0x82, 0x47, 0xA2, 0xA0, 0xA7, 0x45, 0x46, 0x50, 0x11, 0x54, 0x55, 0x56] : List Byte) →
    step s = .next { s with
      run := .faulted ⟨.unknownInstruction (s.readByte s.pc), s.pc⟩, ir := none, opA := none, opB := none }

/-- A fetch past 255 faults instead of wrapping: an opcode fetch with pc past 255 records the pc, an operand fetch past
255 records 256, and neither changes anything else (30_encoding.md R82, R83, 60_exceptions.md R184; the spec's decisions D7,
D10, D11, log entries 4, 5, 14). -/
def Obligations.FetchPastTheEndFaults : Prop :=
  (∀ s : State, s.run = .running → 256 ≤ s.pc →
    step s = .next { s with
      run := .faulted ⟨.memoryOutOfBounds s.pc, s.pc⟩, ir := none, opA := none, opB := none }) ∧
  (∀ (s : State) (op : Opcode), s.run = .running → s.pc ≤ 255 → s.readByte s.pc = opcodeOf op →
    255 < s.pc + op.operandCount →
    step s = .next { s with run := .faulted ⟨.memoryOutOfBounds 256, s.pc⟩, ir := none, opA := none, opB := none })

/-- R42: a fetch latches the opcode byte in IR and the operand bytes, when the instruction has them, in opA and opB; no
latch outlives the step; and no instruction reads one. -/
def Obligations.LatchesLiveWithinOneStep : Prop :=
  (∀ (s u : State) (i : Instr), fetch s = .ok (i, u) →
    u.ir = some (s.readByte s.pc) ∧
    u.opA = (if 1 ≤ i.opcode.operandCount then some (s.readByte (s.pc + 1)) else none) ∧
    u.opB = (if i.opcode.operandCount = 2 then some (s.readByte (s.pc + 2)) else none)) ∧
  (∀ s t : State, s.run = .running → step s = .next t → t.ir = none ∧ t.opA = none ∧ t.opB = none) ∧
  (∀ (i : Instr) (s t : State) (ir a b : Option Byte), exec i s = .next t →
    exec i { s with ir := ir, opA := a, opB := b } = .next { t with ir := ir, opA := a, opB := b })

/-- Every execution and every step answers a next state: a fault is taken, in the run state, and no ordinary data ends a
run in the model (10_state.md R38, R47, 60_exceptions.md R181; the form of fault entry is log entry 1). -/
def Obligations.EveryStepAnswersAState : Prop :=
  (∀ (i : Instr) (s : State), ∃ t, exec i s = .next t) ∧ (∀ s : State, ∃ t, step s = .next t)

/-- `step()` when the run state is not Running changes nothing (30_encoding.md R88, the spec's decision D12, log entry 4). -/
def Obligations.StepOutsideRunningChangesNothing : Prop :=
  ∀ s : State, s.run ≠ .running → step s = .next s

/-- Halted and Faulted are terminal: no sequence of steps leaves them, resumes anything or changes the record (10_state.md
R40). That the WHOLE state is kept by steps outside Running is 30_encoding.md R88, the spec's decision D12 (log entry 4). -/
def Obligations.StoppedMachineStaysStopped : Prop :=
  ∀ s t : State, s.run ≠ .running → Steps s t → t = s

/-- Running becomes Halted exactly by executing HLT, becomes Faulted exactly when the step raises that fault, and no step
leaves Halted or Faulted (10_state.md R39). That the record holds the pc of the faulting step is R44, and that an execution
which raises a fault answers its starting state with nothing but the record written is 00_scope.md R17; both are the spec's
decision D11 (log entry 4). -/
def Obligations.RunStateTransitions : Prop :=
  ∀ s t : State, step s = .next t →
    (s.run ≠ .running → t.run = s.run) ∧
    (s.run = .running →
      (t.run = .halted ↔ ∃ u, fetch s = .ok (.hlt, u)) ∧
      (∀ f : FaultRecord, t.run = .faulted f ↔
        f.pc = s.pc ∧ (fetch s = .error f.kind ∨ ∃ i u, fetch s = .ok (i, u) ∧ exec i u = .next (u.raise f.kind))))

/-! ### Faults -/

/-- A step that faults records the pc it started with and leaves every other piece of state as it was
(00_scope.md R17, 60_exceptions.md R181, R190; the spec's decision D11, log entry 4). -/
def Obligations.FaultingStepCommitsNothing : Prop :=
  ∀ (s t : State) (f : FaultRecord), s.run = .running → step s = .next t → t.run = .faulted f →
    f.pc = s.pc ∧ t = { s with run := .faulted f, ir := none, opA := none, opB := none }

/-- The info of each fault kind: an unknown byte is the byte at the pc and no opcode's, an out-of-bounds address is 256 or
-1, an out-of-bounds index is above 7 (60_exceptions.md R183, R184, R185, R187; the spec's decisions D7, D8, D9, D15). -/
def Obligations.FaultInfoIsAsTabled : Prop :=
  ∀ (s t : State) (f : FaultRecord), s.run = .running → s.pc ≤ 256 → step s = .next t → t.run = .faulted f →
    (∃ b, f.kind = .unknownInstruction b ∧ b = s.readByte s.pc ∧ ∀ op, b ≠ opcodeOf op) ∨
    f.kind = .memoryOutOfBounds 256 ∨
    f.kind = .memoryOutOfBounds (-1) ∨
    (∃ b, f.kind = .registerOutOfBounds b ∧ 8 ≤ b.toNat)

/-- R186: the ALU reached with another tag raises InternalFault, which records the pc, and no program can cause it: no step
from Running ends in it. -/
def Obligations.InternalFaultIsUnreachable : Prop :=
  (∀ (s : State) (a b : Byte), a.toNat < 8 → b.toNat < 8 →
    s.commit (aluRule .other a b s) = .next { s with run := .faulted ⟨.internalFault, s.pc⟩ }) ∧
  (∀ (s t : State) (f : FaultRecord), s.run = .running → step s = .next t → t.run = .faulted f →
    f.kind ≠ .internalFault)

/-- Every register operand is checked, before anything else the instruction checks and whether or not its value is
used: the first bad index, `a` before `b`, is the fault, and a well-formed instruction never raises RegisterOutOfBounds
(60_exceptions.md R185, R189, 30_encoding.md R75; the spec's decisions D10, D14, D15, log entries 7, 14). -/
def Obligations.FirstBadIndexFaults : Prop :=
  (∀ (i : Instr) (s : State) (b : Byte), firstBadIndex i = some b →
    exec i s = .next { s with run := .faulted ⟨.registerOutOfBounds b, s.pc⟩ }) ∧
  (∀ (i : Instr) (s t : State) (f : FaultRecord) (b : Byte), i.wellFormed = true → s.run = .running →
    exec i s = .next t → t.run = .faulted f → f.kind ≠ .registerOutOfBounds b)

/-! ### HLT, LDI, PRN -/

/-- HLT is the byte 0x01, halts, advances the pc by 1 (to 256 from 255, without a fault) and changes nothing else
(40_halt_load_print.md R100); after it a step changes nothing (30_encoding.md R88, the spec's decision D12, log entry 4). -/
def Obligations.HltHalts : Prop :=
  encode .hlt = [0x01] ∧
  (∀ s : State, exec .hlt s = .next { s with run := .halted, pc := s.pc + 1 }) ∧
  (∀ s : State, s.run = .halted → step s = .next s)

/-- LDI writes its immediate byte, unchanged, to the register its first operand names, R7 included, and advances the pc by
3; a bad index faults (40_halt_load_print.md R101, 10_state.md R25). -/
def Obligations.LdiLoadsImmediate : Prop :=
  (∀ (s : State) (a imm : Byte) (r : Fin 8), a.toNat = r.val →
    exec (.ldi a imm) s = .next { s with x := s.x.set r imm, pc := s.pc + 3 }) ∧
  (∀ (s : State) (a imm : Byte), 8 ≤ a.toNat →
    exec (.ldi a imm) s = .next { s with run := .faulted ⟨.registerOutOfBounds a, s.pc⟩ })

/-- PRN appends the register's value to the output history and advances the pc by 2; a bad index faults and emits
nothing (40_halt_load_print.md R102, 60_exceptions.md R196). -/
def Obligations.PrnEmitsRegister : Prop :=
  (∀ (s : State) (a : Byte) (r : Fin 8), a.toNat = r.val →
    exec (.prn a) s = .next { s with out := s.out ++ [s.x[r]], pc := s.pc + 2 }) ∧
  (∀ (s : State) (a : Byte), 8 ≤ a.toNat →
    exec (.prn a) s = .next { s with run := .faulted ⟨.registerOutOfBounds a, s.pc⟩ })

/-- LDI of a value followed by PRN of the same register yields exactly that value (40_halt_load_print.md R102,
95_test_vectors.md W1). -/
def Obligations.LdiThenPrnEmitsTheValue : Prop :=
  ∀ (s : State) (a v : Byte), a.toNat < 8 →
    ∃ t u, exec (.ldi a v) s = .next t ∧ exec (.prn a) t = .next u ∧ u.out = s.out ++ [v] ∧ u.pc = s.pc + 5

/-! ### The ALU -/

/-- MUL writes (x[a] * x[b]) mod 256 to x[a], advances the pc by 3, and changes nothing else; `a` is checked before `b`
(41_alu.md R124). -/
def Obligations.MulMultipliesModulo256 : Prop :=
  (∀ (s : State) (a b : Byte) (ra rb : Fin 8), a.toNat = ra.val → b.toNat = rb.val →
    exec (.mul a b) s = .next { s with
      x := s.x.set ra (BitVec.ofNat 8 (s.x[ra].toNat * s.x[rb].toNat % 256)), pc := s.pc + 3 }) ∧
  (∀ (s : State) (a b : Byte), 8 ≤ a.toNat →
    exec (.mul a b) s = .next { s with run := .faulted ⟨.registerOutOfBounds a, s.pc⟩ }) ∧
  (∀ (s : State) (a b : Byte), a.toNat < 8 → 8 ≤ b.toNat →
    exec (.mul a b) s = .next { s with run := .faulted ⟨.registerOutOfBounds b, s.pc⟩ })

/-- ADD writes (x[a] + x[b]) mod 256 to x[a], R7 included, advances the pc by 3, and changes nothing else; `a` is checked
before `b` (41_alu.md R125). -/
def Obligations.AddAddsModulo256 : Prop :=
  (∀ (s : State) (a b : Byte) (ra rb : Fin 8), a.toNat = ra.val → b.toNat = rb.val →
    exec (.add a b) s = .next { s with
      x := s.x.set ra (BitVec.ofNat 8 ((s.x[ra].toNat + s.x[rb].toNat) % 256)), pc := s.pc + 3 }) ∧
  (∀ (s : State) (a b : Byte), 8 ≤ a.toNat →
    exec (.add a b) s = .next { s with run := .faulted ⟨.registerOutOfBounds a, s.pc⟩ }) ∧
  (∀ (s : State) (a b : Byte), a.toNat < 8 → 8 ≤ b.toNat →
    exec (.add a b) s = .next { s with run := .faulted ⟨.registerOutOfBounds b, s.pc⟩ })

/-- R123: ADD and MUL set the destination to the exact result modulo 256, and overflow is not detected, reported or
flagged: neither the run state nor FL changes, whatever the operands. -/
def Obligations.ArithmeticKeepsLowEightBits : Prop :=
  ∀ (s : State) (a b : Byte) (ra rb : Fin 8), a.toNat = ra.val → b.toNat = rb.val →
    (∃ t, exec (.add a b) s = .next t ∧
      (t.getReg ra).toNat = ((s.getReg ra).toNat + (s.getReg rb).toNat) % 256 ∧ t.fl = s.fl ∧ t.run = s.run) ∧
    (∃ t, exec (.mul a b) s = .next t ∧
      (t.getReg ra).toNat = ((s.getReg ra).toNat * (s.getReg rb).toNat) % 256 ∧ t.fl = s.fl ∧ t.run = s.run)

/-- CMP writes the whole FL byte by the unsigned order of its operands, advances the pc by 3, and changes nothing else;
`a` is checked before `b` (41_alu.md R126). -/
def Obligations.CmpSetsFlags : Prop :=
  (∀ (s : State) (a b : Byte) (ra rb : Fin 8), a.toNat = ra.val → b.toNat = rb.val →
    exec (.cmp a b) s = .next { s with
      fl := if s.x[ra].toNat = s.x[rb].toNat then 0x01 else if s.x[rb].toNat < s.x[ra].toNat then 0x02 else 0x04,
      pc := s.pc + 3 }) ∧
  (∀ (s : State) (a b : Byte), 8 ≤ a.toNat →
    exec (.cmp a b) s = .next { s with run := .faulted ⟨.registerOutOfBounds a, s.pc⟩ }) ∧
  (∀ (s : State) (a b : Byte), a.toNat < 8 → 8 ≤ b.toNat →
    exec (.cmp a b) s = .next { s with run := .faulted ⟨.registerOutOfBounds b, s.pc⟩ })

/-- R127: CMP sets exactly one of Equal, Less, Greater, the one consistent with the unsigned values of its operands. -/
def Obligations.CompareIsUnsigned : Prop :=
  ∀ (s : State) (a b : Byte) (ra rb : Fin 8), a.toNat = ra.val → b.toNat = rb.val →
    ∃ t, exec (.cmp a b) s = .next t ∧
      (flagE t.fl = true ↔ (s.getReg ra).toNat = (s.getReg rb).toNat) ∧
      (flagG t.fl = true ↔ (s.getReg rb).toNat < (s.getReg ra).toNat) ∧
      (flagL t.fl = true ↔ (s.getReg ra).toNat < (s.getReg rb).toNat)

/-- R32: only CMP writes FL; it writes the whole byte, whatever FL held, with exactly one of E, G, L set and bits 7:3
clear. -/
def Obligations.OnlyCmpWritesFlags : Prop :=
  (∀ (i : Instr) (s t : State), exec i s = .next t → i.opcode ≠ .cmp → t.fl = s.fl) ∧
  (∀ (s : State) (a b : Byte), a.toNat < 8 → b.toNat < 8 →
    ∃ t, exec (.cmp a b) s = .next t ∧ (t.fl = 0b00000001 ∨ t.fl = 0b00000010 ∨ t.fl = 0b00000100) ∧
      ∀ fl : Byte, exec (.cmp a b) { s with fl := fl } = .next t)

/-- R33: FL influences only JEQ and JNE, and these only through E; G and L are read by no instruction. Changing FL changes
nothing else in what any other instruction does, and nothing in what JEQ and JNE do as long as E is the same. -/
def Obligations.OnlyEqualIsRead : Prop :=
  ∀ (i : Instr) (s t : State) (fl : Byte), exec i s = .next t →
    ((i.opcode ≠ .jeq ∧ i.opcode ≠ .jne) ∨ flagE fl = flagE s.fl →
      ∃ u, exec i { s with fl := fl } = .next u ∧ { u with fl := t.fl } = t)

/-! ### The stack -/

/-- PUSH decrements SP and stores there the register's value as read after the decrement; it advances the pc by 2 and
changes nothing else. A bad index faults, else SP = 0 faults with address -1 (42_stack.md R141, R144; the spec's decisions
D8, D11, D13, log entries 4, 6, 7). The stored byte reads back in canonical memory, the model's invariant. -/
def Obligations.PushStoresAtNewTop : Prop :=
  (∀ (s : State) (a : Byte) (r : Fin 8), a.toNat = r.val → s.sp.toNat ≠ 0 →
    ∃ t, exec (.push a) s = .next t ∧
      t.sp.toNat = s.sp.toNat - 1 ∧ (∀ j : Fin 8, j ≠ 7 → t.getReg j = s.getReg j) ∧
      (s.mem.wf = true → (t.readByte (s.sp.toNat - 1)).toNat = if r = 7 then s.sp.toNat - 1 else (s.getReg r).toNat) ∧
      (∀ c : Nat, c ≠ s.sp.toNat - 1 → t.readByte c = s.readByte c) ∧
      t.pc = s.pc + 2 ∧ t.fl = s.fl ∧ t.run = s.run ∧ t.out = s.out ∧ t.ir = s.ir ∧ t.opA = s.opA ∧ t.opB = s.opB) ∧
  (∀ (s : State) (a : Byte), 8 ≤ a.toNat →
    exec (.push a) s = .next { s with run := .faulted ⟨.registerOutOfBounds a, s.pc⟩ }) ∧
  (∀ (s : State) (a : Byte), a.toNat < 8 → s.sp.toNat = 0 →
    exec (.push a) s = .next { s with run := .faulted ⟨.memoryOutOfBounds (-1), s.pc⟩ })

/-- POP writes the byte at SP to its register, then increments SP, so that POP R7 leaves the popped byte plus one; it
advances the pc by 2 and changes nothing else, the popped cell included. A bad index faults, else an SP that would become
256 faults (42_stack.md R142, R145; the spec's decisions D8, D11, D13, log entries 4, 6, 7). -/
def Obligations.PopLoadsFromTop : Prop :=
  (∀ (s : State) (a : Byte) (r : Fin 8), a.toNat = r.val → r ≠ 7 → s.sp.toNat < 255 →
    exec (.pop a) s = .next { s with
      x := (s.x.set r (s.readByte s.sp.toNat)).set 7 (BitVec.ofNat 8 (s.sp.toNat + 1)), pc := s.pc + 2 }) ∧
  (∀ (s : State) (a : Byte), a.toNat = 7 → (s.readByte s.sp.toNat).toNat < 255 →
    ∃ t, exec (.pop a) s = .next t ∧ t.sp.toNat = (s.readByte s.sp.toNat).toNat + 1 ∧
      (∀ j : Fin 8, j ≠ 7 → t.getReg j = s.getReg j) ∧ t.mem = s.mem ∧
      t.pc = s.pc + 2 ∧ t.fl = s.fl ∧ t.run = s.run ∧ t.out = s.out ∧ t.ir = s.ir ∧ t.opA = s.opA ∧ t.opB = s.opB) ∧
  (∀ (s : State) (a : Byte), 8 ≤ a.toNat →
    exec (.pop a) s = .next { s with run := .faulted ⟨.registerOutOfBounds a, s.pc⟩ }) ∧
  (∀ (s : State) (a : Byte), a.toNat < 7 → s.sp.toNat = 255 →
    exec (.pop a) s = .next { s with run := .faulted ⟨.memoryOutOfBounds 256, s.pc⟩ }) ∧
  (∀ (s : State) (a : Byte), a.toNat = 7 → (s.readByte s.sp.toNat).toNat = 255 →
    exec (.pop a) s = .next { s with run := .faulted ⟨.memoryOutOfBounds 256, s.pc⟩ })

/-- PUSH then POP of the same register, R7 included, restores every register and the SP whenever SP is not 0 before the
PUSH; the only cell that changes is the one the PUSH stores to (42_stack.md R146, 95_test_vectors.md W4). Memory is in
canonical form, the model's invariant. -/
def Obligations.PushPopRoundTrip : Prop :=
  ∀ (s : State) (a : Byte), s.mem.wf = true → a.toNat < 8 → s.sp.toNat ≠ 0 →
    ∃ t u, exec (.push a) s = .next t ∧ exec (.pop a) t = .next u ∧
      (∀ j : Fin 8, u.getReg j = s.getReg j) ∧ u.pc = s.pc + 4 ∧ u.fl = s.fl ∧ u.run = s.run ∧ u.out = s.out ∧
      (∀ c : Nat, c ≠ s.sp.toNat - 1 → u.readByte c = s.readByte c)

/-! ### Control transfer -/

/-- CALL stores pc + 2 at the decremented SP and jumps to the register as read after the push; it changes nothing else. A bad
index faults, else SP = 0, else pc = 254 (43_control_transfer.md R161, R166; the spec's decisions D8, D9, D10, D11, D13, log
entries 4, 6, 7, 14). The stored byte reads back in canonical memory, the model's invariant. -/
def Obligations.CallPushesReturnAddress : Prop :=
  (∀ (s : State) (a : Byte) (r : Fin 8), a.toNat = r.val → s.sp.toNat ≠ 0 → s.pc ≤ 253 →
    ∃ t, exec (.call a) s = .next t ∧
      t.pc = (if r = 7 then s.sp.toNat - 1 else (s.getReg r).toNat) ∧
      t.sp.toNat = s.sp.toNat - 1 ∧ (∀ j : Fin 8, j ≠ 7 → t.getReg j = s.getReg j) ∧
      (s.mem.wf = true → (t.readByte (s.sp.toNat - 1)).toNat = s.pc + 2) ∧
      (∀ c : Nat, c ≠ s.sp.toNat - 1 → t.readByte c = s.readByte c) ∧
      t.fl = s.fl ∧ t.run = s.run ∧ t.out = s.out ∧ t.ir = s.ir ∧ t.opA = s.opA ∧ t.opB = s.opB) ∧
  (∀ (s : State) (a : Byte), 8 ≤ a.toNat →
    exec (.call a) s = .next { s with run := .faulted ⟨.registerOutOfBounds a, s.pc⟩ }) ∧
  (∀ (s : State) (a : Byte), a.toNat < 8 → s.sp.toNat = 0 →
    exec (.call a) s = .next { s with run := .faulted ⟨.memoryOutOfBounds (-1), s.pc⟩ }) ∧
  (∀ (s : State) (a : Byte), a.toNat < 8 → s.sp.toNat ≠ 0 → s.pc = 254 →
    exec (.call a) s = .next { s with run := .faulted ⟨.memoryOutOfBounds 256, s.pc⟩ })

/-- RET jumps to the byte at SP and increments SP, and changes nothing else, the popped cell included; SP = 255 faults
(43_control_transfer.md R162, R166; the spec's decisions D8, D11, log entries 4, 6). -/
def Obligations.RetPopsThePc : Prop :=
  (∀ s : State, s.sp.toNat < 255 →
    exec .ret s = .next { s with
      x := s.x.set 7 (BitVec.ofNat 8 (s.sp.toNat + 1)), pc := (s.readByte s.sp.toNat).toNat }) ∧
  (∀ s : State, s.sp.toNat = 255 →
    exec .ret s = .next { s with run := .faulted ⟨.memoryOutOfBounds 256, s.pc⟩ })

/-- CALL followed by RET resumes at the instruction after the CALL, with every register as it was
(43_control_transfer.md R162, R166, 95_test_vectors.md W5). Memory is in canonical form, the model's invariant. -/
def Obligations.CallRetRoundTrip : Prop :=
  ∀ (s : State) (a : Byte), s.mem.wf = true → a.toNat < 8 → s.sp.toNat ≠ 0 → s.pc ≤ 253 →
    ∃ t u, exec (.call a) s = .next t ∧ exec .ret t = .next u ∧
      u.pc = s.pc + 2 ∧ (∀ j : Fin 8, u.getReg j = s.getReg j) ∧ u.fl = s.fl ∧ u.run = s.run ∧ u.out = s.out ∧
      (∀ c : Nat, c ≠ s.sp.toNat - 1 → u.readByte c = s.readByte c)

/-- JMP sets the pc to the register's value and changes nothing else; a bad index faults (43_control_transfer.md R163). -/
def Obligations.JmpSetsThePc : Prop :=
  (∀ (s : State) (a : Byte) (r : Fin 8), a.toNat = r.val →
    exec (.jmp a) s = .next { s with pc := s.x[r].toNat }) ∧
  (∀ (s : State) (a : Byte), 8 ≤ a.toNat →
    exec (.jmp a) s = .next { s with run := .faulted ⟨.registerOutOfBounds a, s.pc⟩ })

/-- JEQ jumps exactly when E is set and else advances the pc by 2, changing nothing else; a bad index faults, taken or not
(43_control_transfer.md R164; the check of an unused index is the spec's decision D14, log entry 7). -/
def Obligations.JeqJumpsWhenEqual : Prop :=
  (∀ (s : State) (a : Byte) (r : Fin 8), a.toNat = r.val → s.fl.getLsbD 0 = true →
    exec (.jeq a) s = .next { s with pc := s.x[r].toNat }) ∧
  (∀ (s : State) (a : Byte), a.toNat < 8 → s.fl.getLsbD 0 = false →
    exec (.jeq a) s = .next { s with pc := s.pc + 2 }) ∧
  (∀ (s : State) (a : Byte), 8 ≤ a.toNat →
    exec (.jeq a) s = .next { s with run := .faulted ⟨.registerOutOfBounds a, s.pc⟩ })

/-- JNE jumps exactly when E is clear and else advances the pc by 2, changing nothing else; a bad index faults, taken or not
(43_control_transfer.md R165; the check of an unused index is the spec's decision D14, log entry 7). -/
def Obligations.JneJumpsWhenNotEqual : Prop :=
  (∀ (s : State) (a : Byte) (r : Fin 8), a.toNat = r.val → s.fl.getLsbD 0 = false →
    exec (.jne a) s = .next { s with pc := s.x[r].toNat }) ∧
  (∀ (s : State) (a : Byte), a.toNat < 8 → s.fl.getLsbD 0 = true →
    exec (.jne a) s = .next { s with pc := s.pc + 2 }) ∧
  (∀ (s : State) (a : Byte), 8 ≤ a.toNat →
    exec (.jne a) s = .next { s with run := .faulted ⟨.registerOutOfBounds a, s.pc⟩ })

/-- R29: how each instruction that does not fault advances the pc. -/
def Obligations.PcAdvancesAsTabled : Prop :=
  ∀ (i : Instr) (s t : State), s.run = .running → exec i s = .next t → (∀ f, t.run ≠ .faulted f) →
    match i with
    | .hlt => t.pc = s.pc + 1
    | .ldi _ _ => t.pc = s.pc + 3
    | .prn _ => t.pc = s.pc + 2
    | .mul _ _ => t.pc = s.pc + 3
    | .add _ _ => t.pc = s.pc + 3
    | .cmp _ _ => t.pc = s.pc + 3
    | .push _ => t.pc = s.pc + 2
    | .pop _ => t.pc = s.pc + 2
    | .call a => ∃ r : Fin 8, a.toNat = r.val ∧ t.pc = (t.getReg r).toNat
    | .ret => t.pc = (s.readByte s.sp.toNat).toNat
    | .jmp a => ∃ r : Fin 8, a.toNat = r.val ∧ t.pc = (s.getReg r).toNat
    | .jeq a => ∃ r : Fin 8, a.toNat = r.val ∧ t.pc = if s.fl.getLsbD 0 then (s.getReg r).toNat else s.pc + 2
    | .jne a => ∃ r : Fin 8, a.toNat = r.val ∧ t.pc = if s.fl.getLsbD 0 then s.pc + 2 else (s.getReg r).toNat

/-! ### Frames -/

/-- Only PUSH and CALL store: HLT, LDI, PRN, MUL, ADD, CMP, POP, RET, JMP, JEQ, JNE leave every byte of memory as it was.
Only POP and RET read data, and only the byte at SP: with any other memory that byte alone decides what they do, and the
other nine that store nothing do the same with every memory. PUSH and CALL read no data: with any other memory they answer a
state that differs in memory alone (20_memory.md R55). -/
def Obligations.OnlyPushAndCallStore : Prop :=
  (∀ (i : Instr) (s t : State), exec i s = .next t → i.opcode ≠ .push → i.opcode ≠ .call →
    ∀ c : Nat, t.readByte c = s.readByte c) ∧
  (∀ (i : Instr) (s t : State) (m : Memory), exec i s = .next t → i.opcode ≠ .push → i.opcode ≠ .call →
    (i.opcode = .pop ∨ i.opcode = .ret → m.get s.sp.toNat = s.readByte s.sp.toNat) →
    exec i { s with mem := m } = .next { t with mem := m }) ∧
  (∀ (i : Instr) (s t : State) (m : Memory), exec i s = .next t → i.opcode = .push ∨ i.opcode = .call →
    ∃ u, exec i { s with mem := m } = .next u ∧ { u with mem := t.mem } = t)

/-- The frame of PUSH and CALL: the one byte they store stands at the SP that the decrement leaves, and every other byte
reads as before; where the decrement faults, all of memory reads as before (20_memory.md R55, 42_stack.md R141). -/
def Obligations.StoreGoesToTheNewTop : Prop :=
  ∀ (i : Instr) (s t : State), (i.opcode = .push ∨ i.opcode = .call) → exec i s = .next t →
    (∀ u, decSp s = .ok u → ∀ c : Nat, c ≠ u.sp.toNat → t.readByte c = s.readByte c) ∧
    (∀ f, decSp s = .error f → ∀ c : Nat, t.readByte c = s.readByte c)

/-- The frame of the register file: an instruction changes no register but those R23 lists as written by it, SP being the
implicit one of PUSH, POP, CALL and RET (10_state.md R22, R23). -/
def Obligations.RegistersOutsideTheTableKeepTheirValue : Prop :=
  ∀ (i : Instr) (s t : State) (r : Fin 8), exec i s = .next t → (∀ b ∈ writtenRegs i, b.toNat ≠ r.val) →
    t.getReg r = s.getReg r

/-- R43: the output history is empty at reset, PRN appends the register's value at its end, and no other instruction
changes it. -/
def Obligations.OnlyPrnAppendsToTheOutput : Prop :=
  State.reset.out = [] ∧
  (∀ (s : State) (a : Byte) (r : Fin 8), a.toNat = r.val →
    ∃ t, exec (.prn a) s = .next t ∧ t.out = s.out ++ [s.getReg r]) ∧
  (∀ (i : Instr) (s t : State), exec i s = .next t → i.opcode ≠ .prn → t.out = s.out)

/-! ### Memory -/

/-- R52, R53, R54: an access outside 0..255 faults with the address it was given, never wrapped or truncated; inside, a read
gives the cell's byte, a written byte reads back, and a write changes no other cell and nothing but memory. Reading back is
of canonical memory, the model's invariant. -/
def Obligations.MemoryPrimitivesCheckTheirRange : Prop :=
  (∀ (s : State) (addr : Int) (v : Byte), addr < 0 ∨ 255 < addr →
    memRead s addr = .error (.memoryOutOfBounds addr) ∧ memWrite s addr v = .error (.memoryOutOfBounds addr)) ∧
  (∀ (s : State) (addr : Nat) (v : Byte), addr ≤ 255 →
    memRead s addr = .ok (s.readByte addr) ∧
    ∃ t, memWrite s addr v = .ok t ∧ { t with mem := s.mem } = s ∧
      (s.mem.wf = true → memRead t addr = .ok v) ∧ ∀ c : Nat, c ≠ addr → t.readByte c = s.readByte c)

/-- Two memories in canonical form that read alike at all 256 addresses are the same data (20_memory.md R50; the form is the
model's). -/
def Obligations.CanonicalMemoryIsUnique : Prop :=
  ∀ m n : Memory, m.wf = true → n.wf = true → (∀ a, a < 256 → m.get a = n.get a) → m = n

/-- A byte that PUSH or CALL stores is fetched as stored by the next fetch of its address: it is unknown there exactly when
it is no opcode, and else selects the instruction it encodes (20_memory.md R64, 70_reset_and_hazards.md R223). -/
def Obligations.StoredByteIsFetched : Prop :=
  ∀ (i : Instr) (s t : State), s.mem.wf = true → s.run = .running → (i.opcode = .push ∨ i.opcode = .call) →
    exec i s = .next t → t.run = .running →
    (decodeOpcode (t.readByte t.sp.toNat) = none →
      fetch { t with pc := t.sp.toNat } = .error (.unknownInstruction (t.readByte t.sp.toNat))) ∧
    (∀ op, decodeOpcode (t.readByte t.sp.toNat) = some op → t.sp.toNat + op.operandCount ≤ 255 →
      ∃ j u, fetch { t with pc := t.sp.toNat } = .ok (j, u) ∧ j.opcode = op) ∧
    (∀ a : Byte, i = .push a → ∀ r : Fin 8, r ≠ 7 → a.toNat = r.val → t.readByte t.sp.toNat = s.getReg r) ∧
    (∀ a : Byte, i = .call a → (t.readByte t.sp.toNat).toNat = s.pc + 2)

/-! ### The invariant and reset -/

/-- Every step keeps the invariant: canonical memory (20_memory.md R50, the form is the model's); pc at most 256 (10_state.md
R28, the spec's decision D7, log entry 5); FL one of 0x00, 0x01, 0x02, 0x04 (R35); a legal fault record, its info as
60_exceptions.md R183 to R187 table it, an address being 256 or -1 only (D7, D8, D9, log entries 5 and 6), its pc the one the
state still has (R44, R190, D11, log entry 4); no latch held (R42, log entry 8). -/
def Obligations.StepKeepsInvariant : Prop :=
  ∀ s t : State, s.Inv → step s = .next t → t.Inv

/-- The reset state meets the invariant. -/
def Obligations.ResetMeetsInvariant : Prop := State.reset.Inv

/-- Whatever image is loaded after construction, every state its run reaches meets the invariant of StepKeepsInvariant, and so
rests on the same choices: the pc up to 256 (10_state.md R28, D7, log entry 5), the addresses 256 and -1 of a record
(60_exceptions.md R184, D7, D8, D9, log entries 5 and 6), the record at the pc the state still has (R44, R190, D11, log entry 4),
no latch held (R42, log entry 8); the load is 70_reset_and_hazards.md R216 (D17, log entry 9), from reset values of D4, D5, D6
(log entry 3). -/
def Obligations.EveryRunOfALoadedMachineMeetsInvariant : Prop :=
  ∀ (image : List Byte) (h : Session) (t : State), Session.construct.load image = .next h → Steps h.machine t → t.Inv

/-- The value of every piece of state after reset (10_state.md R45, 70_reset_and_hazards.md R211, R212); the values of R0-R6,
FL and memory are the spec's decisions D4, D5, D6 (log entry 3). -/
def Obligations.ResetValues : Prop :=
  State.reset.pc = 0 ∧ State.reset.getReg 7 = 0xF4 ∧ (∀ r : Fin 8, r ≠ 7 → State.reset.getReg r = 0x00) ∧
  State.reset.fl = 0x00 ∧ (∀ a : Nat, State.reset.readByte a = 0x00) ∧ State.reset.run = .running ∧
  State.reset.ir = none ∧ State.reset.opA = none ∧ State.reset.opB = none ∧ State.reset.out = []

/-! ### The interface -/

/-- Loading an image of at most 256 bytes after construction stores its bytes from address 0 upward, leaves every other cell
at the fill value 0x00, and touches nothing but memory (70_reset_and_hazards.md R215, R216; the spec's decisions D6, D17, log
entries 3, 9). -/
def Obligations.LoadPlacesTheImage : Prop :=
  ∀ image : List Byte, image.length ≤ 256 →
    ∃ h, Session.construct.load image = .next h ∧
      (∀ a : Nat, a < 256 → h.machine.readByte a = (image[a]?).getD 0x00) ∧
      { h.machine with mem := [] } = State.reset

/-- A load is accepted once, and only before the first step: after a load or a step every load is refused
(70_reset_and_hazards.md R217, the spec's decision D17; the session that remembers it is log entry 9). -/
def Obligations.LoadIsAcceptedOnce : Prop :=
  (∀ (h k : Session) (image image' : List Byte), h.load image = .next k → k.load image' = .refused .loadNotAccepted) ∧
  (∀ (h k : Session) (r : StepResult) (image : List Byte), h.step = .next (k, r) →
    k.load image = .refused .loadNotAccepted)

/-- A run that ends within a bound ends Halted or Faulted, after steps of the machine, with the result its last state gives,
and any larger bound gives the same end (30_encoding.md R87, 10_state.md R47; the bound is the host's). -/
def Obligations.RunEndsOnlyHaltedOrFaulted : Prop :=
  ∀ (n k : Nat) (s t : State) (r : StepResult), runSteps n s = some (t, r) →
    r ≠ .ok ∧ r = t.result ∧ Steps s t ∧ runSteps (n + k) s = some (t, r)

/-- The text of an image, one line of eight binary digits per byte, loads as that image when it has at most 256 bytes, and is
ImageTooLarge, reported with the line for address 256, when it has more (70_reset_and_hazards.md R218, R13; the spec's
decisions D17, D21). -/
def Obligations.BinaryTextLoadsAsItsBytes : Prop :=
  let text : Byte → List Char := fun b => [7, 6, 5, 4, 3, 2, 1, 0].map (fun k => if b.getLsbD k then '1' else '0')
  (∀ image : List Byte, image.length ≤ 256 → parseImage (image.map text) = .ok image) ∧
  (∀ (image more : List Byte) (b : Byte), image.length = 256 →
    parseImage ((image ++ b :: more).map text) = .error (.imageTooLarge (text b)))

/-- The diagnostic port renders two hexadecimal digits per byte: the pc's and each register's text has two digits and reads back
as the value, and so has each of the three bytes from the pc on, but a byte whose address is above 255 is absent
(60_exceptions.md R198, the spec's decision D24). The upper-case digits and the four digits of a pc of 256 are the model's
choice (log entry 12). -/
def Obligations.DiagnosticPortRendersTwoDigitsPerByte : Prop :=
  ∀ s : State,
    (s.pc ≤ 255 → ShowsByte (diagnosticPort s).pc s.pc) ∧
    (s.pc = 256 → (diagnosticPort s).pc = ['0', '1', '0', '0']) ∧
    (diagnosticPort s).bytes.length = 3 ∧
    (∀ k : Nat, k < 3 → 255 < s.pc + k → (diagnosticPort s).bytes[k]? = some none) ∧
    (∀ k : Nat, k < 3 → s.pc + k ≤ 255 →
      ∃ text, (diagnosticPort s).bytes[k]? = some (some text) ∧ ShowsByte text (s.readByte (s.pc + k)).toNat) ∧
    (diagnosticPort s).regs.length = 8 ∧
    (∀ r : Fin 8, ∃ text, (diagnosticPort s).regs[r.val]? = some text ∧ ShowsByte text (s.getReg r).toNat)
end

