-- ==== Sys2Proof/Laws/Decode.lean ====
section
/-! SUPPORT. The opcode map is injective, and what decoding one opcode byte can answer. -/

namespace Sys2Proof

theorem opcodeOf_injective (p q : Opcode) (h : opcodeOf p = opcodeOf q) : p = q := by
  revert h; cases p <;> cases q <;> decide

/-- An opcode's byte decodes to it. -/
@[simp] theorem decodeOpcode_opcodeOf (op : Opcode) : decodeOpcode (opcodeOf op) = some op := by
  cases op <;> decide

/-- A byte that decodes to an opcode is that opcode's byte. -/
theorem opcodeOf_of_decodeOpcode {b : Byte} {op : Opcode} (h : decodeOpcode b = some op) : b = opcodeOf op := by
  have := List.find?_some h
  simpa using (beq_iff_eq.mp this).symm

/-- The operand bytes of an assembled instruction are the first bytes given, as many as the opcode has. -/
theorem operands_assemble (op : Opcode) (a b : Byte) : (op.assemble a b).operands = [a, b].take op.operandCount := by
  cases op <;> rfl

@[simp] theorem opcode_assemble (op : Opcode) (a b : Byte) : (op.assemble a b).opcode = op := by
  cases op <;> rfl

@[simp] theorem operands_length (i : Instr) : i.operands.length = i.opcode.operandCount := by
  cases i <;> rfl

theorem operandCount_le (op : Opcode) : op.operandCount ≤ 2 := by cases op <;> decide

end Sys2Proof
end

