-- ==== Sys2Proof/Laws/State.lean ====
section
/-! SUPPORT. The state record: one lemma per field per update, and the register file read after a write. -/

namespace Sys2Proof.Machine

/-! ### setReg -/

@[simp] theorem State.setReg_mem (s : State) (i : Fin 8) (v : Byte) : (s.setReg i v).mem = s.mem := rfl

@[simp] theorem State.setReg_x (s : State) (i : Fin 8) (v : Byte) : (s.setReg i v).x = s.x.set i v := rfl

@[simp] theorem State.setReg_pc (s : State) (i : Fin 8) (v : Byte) : (s.setReg i v).pc = s.pc := rfl

@[simp] theorem State.setReg_fl (s : State) (i : Fin 8) (v : Byte) : (s.setReg i v).fl = s.fl := rfl

@[simp] theorem State.setReg_run (s : State) (i : Fin 8) (v : Byte) : (s.setReg i v).run = s.run := rfl

@[simp] theorem State.setReg_ir (s : State) (i : Fin 8) (v : Byte) : (s.setReg i v).ir = s.ir := rfl

@[simp] theorem State.setReg_opA (s : State) (i : Fin 8) (v : Byte) : (s.setReg i v).opA = s.opA := rfl

@[simp] theorem State.setReg_opB (s : State) (i : Fin 8) (v : Byte) : (s.setReg i v).opB = s.opB := rfl

@[simp] theorem State.setReg_out (s : State) (i : Fin 8) (v : Byte) : (s.setReg i v).out = s.out := rfl


/-! ### jumpTo -/

@[simp] theorem State.jumpTo_mem (s : State) (v : Byte) : (s.jumpTo v).mem = s.mem := rfl

@[simp] theorem State.jumpTo_x (s : State) (v : Byte) : (s.jumpTo v).x = s.x := rfl

@[simp] theorem State.jumpTo_pc (s : State) (v : Byte) : (s.jumpTo v).pc = v.toNat := rfl

@[simp] theorem State.jumpTo_fl (s : State) (v : Byte) : (s.jumpTo v).fl = s.fl := rfl

@[simp] theorem State.jumpTo_run (s : State) (v : Byte) : (s.jumpTo v).run = s.run := rfl

@[simp] theorem State.jumpTo_ir (s : State) (v : Byte) : (s.jumpTo v).ir = s.ir := rfl

@[simp] theorem State.jumpTo_opA (s : State) (v : Byte) : (s.jumpTo v).opA = s.opA := rfl

@[simp] theorem State.jumpTo_opB (s : State) (v : Byte) : (s.jumpTo v).opB = s.opB := rfl

@[simp] theorem State.jumpTo_out (s : State) (v : Byte) : (s.jumpTo v).out = s.out := rfl


/-! ### advance -/

@[simp] theorem State.advance_mem (s : State) (n : Nat) : (s.advance n).mem = s.mem := rfl

@[simp] theorem State.advance_x (s : State) (n : Nat) : (s.advance n).x = s.x := rfl

@[simp] theorem State.advance_pc (s : State) (n : Nat) : (s.advance n).pc = s.pc + 1 + n := rfl

@[simp] theorem State.advance_fl (s : State) (n : Nat) : (s.advance n).fl = s.fl := rfl

@[simp] theorem State.advance_run (s : State) (n : Nat) : (s.advance n).run = s.run := rfl

@[simp] theorem State.advance_ir (s : State) (n : Nat) : (s.advance n).ir = s.ir := rfl

@[simp] theorem State.advance_opA (s : State) (n : Nat) : (s.advance n).opA = s.opA := rfl

@[simp] theorem State.advance_opB (s : State) (n : Nat) : (s.advance n).opB = s.opB := rfl

@[simp] theorem State.advance_out (s : State) (n : Nat) : (s.advance n).out = s.out := rfl


/-! ### halt -/

@[simp] theorem State.halt_mem (s : State) : (s.halt).mem = s.mem := rfl

@[simp] theorem State.halt_x (s : State) : (s.halt).x = s.x := rfl

@[simp] theorem State.halt_pc (s : State) : (s.halt).pc = s.pc := rfl

@[simp] theorem State.halt_fl (s : State) : (s.halt).fl = s.fl := rfl

@[simp] theorem State.halt_run (s : State) : (s.halt).run = .halted := rfl

@[simp] theorem State.halt_ir (s : State) : (s.halt).ir = s.ir := rfl

@[simp] theorem State.halt_opA (s : State) : (s.halt).opA = s.opA := rfl

@[simp] theorem State.halt_opB (s : State) : (s.halt).opB = s.opB := rfl

@[simp] theorem State.halt_out (s : State) : (s.halt).out = s.out := rfl


/-! ### emit -/

@[simp] theorem State.emit_mem (s : State) (v : Byte) : (s.emit v).mem = s.mem := rfl

@[simp] theorem State.emit_x (s : State) (v : Byte) : (s.emit v).x = s.x := rfl

@[simp] theorem State.emit_pc (s : State) (v : Byte) : (s.emit v).pc = s.pc := rfl

@[simp] theorem State.emit_fl (s : State) (v : Byte) : (s.emit v).fl = s.fl := rfl

@[simp] theorem State.emit_run (s : State) (v : Byte) : (s.emit v).run = s.run := rfl

@[simp] theorem State.emit_ir (s : State) (v : Byte) : (s.emit v).ir = s.ir := rfl

@[simp] theorem State.emit_opA (s : State) (v : Byte) : (s.emit v).opA = s.opA := rfl

@[simp] theorem State.emit_opB (s : State) (v : Byte) : (s.emit v).opB = s.opB := rfl

@[simp] theorem State.emit_out (s : State) (v : Byte) : (s.emit v).out = s.out ++ [v] := rfl


/-! ### raise -/

@[simp] theorem State.raise_mem (s : State) (f : Fault) : (s.raise f).mem = s.mem := rfl

@[simp] theorem State.raise_x (s : State) (f : Fault) : (s.raise f).x = s.x := rfl

@[simp] theorem State.raise_pc (s : State) (f : Fault) : (s.raise f).pc = s.pc := rfl

@[simp] theorem State.raise_fl (s : State) (f : Fault) : (s.raise f).fl = s.fl := rfl

@[simp] theorem State.raise_run (s : State) (f : Fault) : (s.raise f).run = .faulted ⟨f, s.pc⟩ := rfl

@[simp] theorem State.raise_ir (s : State) (f : Fault) : (s.raise f).ir = s.ir := rfl

@[simp] theorem State.raise_opA (s : State) (f : Fault) : (s.raise f).opA = s.opA := rfl

@[simp] theorem State.raise_opB (s : State) (f : Fault) : (s.raise f).opB = s.opB := rfl

@[simp] theorem State.raise_out (s : State) (f : Fault) : (s.raise f).out = s.out := rfl


/-! ### clearLatches -/

@[simp] theorem State.clearLatches_mem (s : State) : (s.clearLatches).mem = s.mem := rfl

@[simp] theorem State.clearLatches_x (s : State) : (s.clearLatches).x = s.x := rfl

@[simp] theorem State.clearLatches_pc (s : State) : (s.clearLatches).pc = s.pc := rfl

@[simp] theorem State.clearLatches_fl (s : State) : (s.clearLatches).fl = s.fl := rfl

@[simp] theorem State.clearLatches_run (s : State) : (s.clearLatches).run = s.run := rfl

@[simp] theorem State.clearLatches_ir (s : State) : (s.clearLatches).ir = none := rfl

@[simp] theorem State.clearLatches_opA (s : State) : (s.clearLatches).opA = none := rfl

@[simp] theorem State.clearLatches_opB (s : State) : (s.clearLatches).opB = none := rfl

@[simp] theorem State.clearLatches_out (s : State) : (s.clearLatches).out = s.out := rfl


/-! ### latchIr -/

@[simp] theorem State.latchIr_mem (s : State) (b : Byte) : (s.latchIr b).mem = s.mem := rfl

@[simp] theorem State.latchIr_x (s : State) (b : Byte) : (s.latchIr b).x = s.x := rfl

@[simp] theorem State.latchIr_pc (s : State) (b : Byte) : (s.latchIr b).pc = s.pc := rfl

@[simp] theorem State.latchIr_fl (s : State) (b : Byte) : (s.latchIr b).fl = s.fl := rfl

@[simp] theorem State.latchIr_run (s : State) (b : Byte) : (s.latchIr b).run = s.run := rfl

@[simp] theorem State.latchIr_ir (s : State) (b : Byte) : (s.latchIr b).ir = some b := rfl

@[simp] theorem State.latchIr_opA (s : State) (b : Byte) : (s.latchIr b).opA = s.opA := rfl

@[simp] theorem State.latchIr_opB (s : State) (b : Byte) : (s.latchIr b).opB = s.opB := rfl

@[simp] theorem State.latchIr_out (s : State) (b : Byte) : (s.latchIr b).out = s.out := rfl


/-! ### latchA -/

@[simp] theorem State.latchA_mem (s : State) (b : Byte) : (s.latchA b).mem = s.mem := rfl

@[simp] theorem State.latchA_x (s : State) (b : Byte) : (s.latchA b).x = s.x := rfl

@[simp] theorem State.latchA_pc (s : State) (b : Byte) : (s.latchA b).pc = s.pc := rfl

@[simp] theorem State.latchA_fl (s : State) (b : Byte) : (s.latchA b).fl = s.fl := rfl

@[simp] theorem State.latchA_run (s : State) (b : Byte) : (s.latchA b).run = s.run := rfl

@[simp] theorem State.latchA_ir (s : State) (b : Byte) : (s.latchA b).ir = s.ir := rfl

@[simp] theorem State.latchA_opA (s : State) (b : Byte) : (s.latchA b).opA = some b := rfl

@[simp] theorem State.latchA_opB (s : State) (b : Byte) : (s.latchA b).opB = s.opB := rfl

@[simp] theorem State.latchA_out (s : State) (b : Byte) : (s.latchA b).out = s.out := rfl


/-! ### latchB -/

@[simp] theorem State.latchB_mem (s : State) (b : Byte) : (s.latchB b).mem = s.mem := rfl

@[simp] theorem State.latchB_x (s : State) (b : Byte) : (s.latchB b).x = s.x := rfl

@[simp] theorem State.latchB_pc (s : State) (b : Byte) : (s.latchB b).pc = s.pc := rfl

@[simp] theorem State.latchB_fl (s : State) (b : Byte) : (s.latchB b).fl = s.fl := rfl

@[simp] theorem State.latchB_run (s : State) (b : Byte) : (s.latchB b).run = s.run := rfl

@[simp] theorem State.latchB_ir (s : State) (b : Byte) : (s.latchB b).ir = s.ir := rfl

@[simp] theorem State.latchB_opA (s : State) (b : Byte) : (s.latchB b).opA = s.opA := rfl

@[simp] theorem State.latchB_opB (s : State) (b : Byte) : (s.latchB b).opB = some b := rfl

@[simp] theorem State.latchB_out (s : State) (b : Byte) : (s.latchB b).out = s.out := rfl


/-! ### latched -/

@[simp] theorem State.latched_mem (s : State) (i : Instr) : (s.latched i).mem = s.mem := rfl

@[simp] theorem State.latched_x (s : State) (i : Instr) : (s.latched i).x = s.x := rfl

@[simp] theorem State.latched_pc (s : State) (i : Instr) : (s.latched i).pc = s.pc := rfl

@[simp] theorem State.latched_fl (s : State) (i : Instr) : (s.latched i).fl = s.fl := rfl

@[simp] theorem State.latched_run (s : State) (i : Instr) : (s.latched i).run = s.run := rfl

@[simp] theorem State.latched_ir (s : State) (i : Instr) : (s.latched i).ir = some (opcodeOf i.opcode) := rfl

@[simp] theorem State.latched_opA (s : State) (i : Instr) : (s.latched i).opA = i.operands[0]? := rfl

@[simp] theorem State.latched_opB (s : State) (i : Instr) : (s.latched i).opB = i.operands[1]? := rfl

@[simp] theorem State.latched_out (s : State) (i : Instr) : (s.latched i).out = s.out := rfl


/-! ### load -/

@[simp] theorem State.load_mem (s : State) (image : List Byte) : (s.load image).mem = s.mem.putBytes 0 image := rfl

@[simp] theorem State.load_x (s : State) (image : List Byte) : (s.load image).x = s.x := rfl

@[simp] theorem State.load_pc (s : State) (image : List Byte) : (s.load image).pc = s.pc := rfl

@[simp] theorem State.load_fl (s : State) (image : List Byte) : (s.load image).fl = s.fl := rfl

@[simp] theorem State.load_run (s : State) (image : List Byte) : (s.load image).run = s.run := rfl

@[simp] theorem State.load_ir (s : State) (image : List Byte) : (s.load image).ir = s.ir := rfl

@[simp] theorem State.load_opA (s : State) (image : List Byte) : (s.load image).opA = s.opA := rfl

@[simp] theorem State.load_opB (s : State) (image : List Byte) : (s.load image).opB = s.opB := rfl

@[simp] theorem State.load_out (s : State) (image : List Byte) : (s.load image).out = s.out := rfl


/-! ### withFetchWord -/

@[simp] theorem State.withFetchWord_mem (s : State) (nbits w : Nat) : (s.withFetchWord nbits w).mem = s.mem.putBytes s.pc (wordBytes nbits w) := rfl

@[simp] theorem State.withFetchWord_x (s : State) (nbits w : Nat) : (s.withFetchWord nbits w).x = s.x := rfl

@[simp] theorem State.withFetchWord_pc (s : State) (nbits w : Nat) : (s.withFetchWord nbits w).pc = s.pc := rfl

@[simp] theorem State.withFetchWord_fl (s : State) (nbits w : Nat) : (s.withFetchWord nbits w).fl = s.fl := rfl

@[simp] theorem State.withFetchWord_run (s : State) (nbits w : Nat) : (s.withFetchWord nbits w).run = .running := rfl

@[simp] theorem State.withFetchWord_ir (s : State) (nbits w : Nat) : (s.withFetchWord nbits w).ir = s.ir := rfl

@[simp] theorem State.withFetchWord_opA (s : State) (nbits w : Nat) : (s.withFetchWord nbits w).opA = s.opA := rfl

@[simp] theorem State.withFetchWord_opB (s : State) (nbits w : Nat) : (s.withFetchWord nbits w).opB = s.opB := rfl

@[simp] theorem State.withFetchWord_out (s : State) (nbits w : Nat) : (s.withFetchWord nbits w).out = s.out := rfl


/-! ### The register file -/

/-- A register reads as the value last written to it; every other register keeps its value. -/
theorem State.getReg_setReg (s : State) (i j : Fin 8) (v : Byte) :
    (s.setReg i v).getReg j = if i = j then v else s.getReg j := by
  simp only [State.getReg, State.setReg, Fin.getElem_fin, Vector.getElem_set, Fin.ext_iff]

@[simp] theorem State.getReg_setReg_self (s : State) (i : Fin 8) (v : Byte) : (s.setReg i v).getReg i = v := by
  simp [State.getReg_setReg]

theorem State.getReg_setReg_other (s : State) {i j : Fin 8} (v : Byte) (h : i ≠ j) :
    (s.setReg i v).getReg j = s.getReg j := by
  simp [State.getReg_setReg, h]

/-- Reading a register depends on the register file alone. -/
theorem State.getReg_of_x {s t : State} (h : s.x = t.x) (i : Fin 8) : s.getReg i = t.getReg i := by
  simp [State.getReg, h]

theorem State.setSp_eq (s : State) (v : Byte) : s.setSp v = s.setReg 7 v := rfl

theorem State.sp_eq (s : State) : s.sp = s.getReg 7 := rfl

@[simp] theorem State.sp_setReg_seven (s : State) (v : Byte) : (s.setReg 7 v).sp = v := by
  simp [State.sp_eq]

theorem State.sp_setReg_other (s : State) {i : Fin 8} (v : Byte) (h : i ≠ 7) : (s.setReg i v).sp = s.sp := by
  simp [State.sp_eq, State.getReg_setReg_other s v h]

@[simp] theorem State.getReg_jumpTo (s : State) (v : Byte) (j : Fin 8) : (s.jumpTo v).getReg j = s.getReg j := rfl

@[simp] theorem State.sp_jumpTo (s : State) (v : Byte) : (s.jumpTo v).sp = s.sp := rfl

@[simp] theorem State.getReg_advance (s : State) (n : Nat) (j : Fin 8) : (s.advance n).getReg j = s.getReg j := rfl

@[simp] theorem State.sp_advance (s : State) (n : Nat) : (s.advance n).sp = s.sp := rfl

@[simp] theorem State.getReg_halt (s : State) (j : Fin 8) : (s.halt).getReg j = s.getReg j := rfl

@[simp] theorem State.sp_halt (s : State) : (s.halt).sp = s.sp := rfl

@[simp] theorem State.getReg_emit (s : State) (v : Byte) (j : Fin 8) : (s.emit v).getReg j = s.getReg j := rfl

@[simp] theorem State.sp_emit (s : State) (v : Byte) : (s.emit v).sp = s.sp := rfl

@[simp] theorem State.getReg_raise (s : State) (f : Fault) (j : Fin 8) : (s.raise f).getReg j = s.getReg j := rfl

@[simp] theorem State.sp_raise (s : State) (f : Fault) : (s.raise f).sp = s.sp := rfl

@[simp] theorem State.getReg_clearLatches (s : State) (j : Fin 8) : (s.clearLatches).getReg j = s.getReg j := rfl

@[simp] theorem State.sp_clearLatches (s : State) : (s.clearLatches).sp = s.sp := rfl

@[simp] theorem State.getReg_latchIr (s : State) (b : Byte) (j : Fin 8) : (s.latchIr b).getReg j = s.getReg j := rfl

@[simp] theorem State.sp_latchIr (s : State) (b : Byte) : (s.latchIr b).sp = s.sp := rfl

@[simp] theorem State.getReg_latchA (s : State) (b : Byte) (j : Fin 8) : (s.latchA b).getReg j = s.getReg j := rfl

@[simp] theorem State.sp_latchA (s : State) (b : Byte) : (s.latchA b).sp = s.sp := rfl

@[simp] theorem State.getReg_latchB (s : State) (b : Byte) (j : Fin 8) : (s.latchB b).getReg j = s.getReg j := rfl

@[simp] theorem State.sp_latchB (s : State) (b : Byte) : (s.latchB b).sp = s.sp := rfl

@[simp] theorem State.getReg_latched (s : State) (i : Instr) (j : Fin 8) : (s.latched i).getReg j = s.getReg j := rfl

@[simp] theorem State.sp_latched (s : State) (i : Instr) : (s.latched i).sp = s.sp := rfl

@[simp] theorem State.getReg_load (s : State) (image : List Byte) (j : Fin 8) : (s.load image).getReg j = s.getReg j := rfl

@[simp] theorem State.sp_load (s : State) (image : List Byte) : (s.load image).sp = s.sp := rfl

@[simp] theorem State.getReg_withFetchWord (s : State) (nbits w : Nat) (j : Fin 8) : (s.withFetchWord nbits w).getReg j = s.getReg j := rfl

@[simp] theorem State.sp_withFetchWord (s : State) (nbits w : Nat) : (s.withFetchWord nbits w).sp = s.sp := rfl


/-! ### Reset -/

theorem State.reset_getReg (i : Fin 8) : State.reset.getReg i = if i = 7 then 0xF4 else 0x00 := by
  revert i; decide

end Sys2Proof.Machine
end

