-- ==== Sys2Proof/Laws/Memory.lean ====
section
/-! SUPPORT. Memory: read after write, and the canonical form is kept by every operation. -/

namespace Sys2Proof.Machine

/-! ### One cell -/

/-- A write leaves every other cell alone; no canonical form is needed for this. -/
theorem Memory.get_put_other {a c : Nat} (h : c ≠ a) (v : Byte) (m : Memory) : (m.put a v).get c = m.get c := by
  induction m with
  | nil => by_cases hv : v = Config.memFill <;> simp [Memory.put, Memory.get, hv, Ne.symm h]
  | cons p rest ih =>
    obtain ⟨addr, byte⟩ := p
    simp only [Memory.put]
    split_ifs with h1 h2 hv hv
    · simp [Memory.get, ih]
    · simp [Memory.get, h2, Ne.symm h]
    · simp [Memory.get, h2, Ne.symm h]
    · rfl
    · simp [Memory.get, Ne.symm h]

/-- Below the first listed address every cell holds the fill value. -/
theorem Memory.get_below {low a : Nat} {m : Memory} (hw : Memory.wfFrom low m = true) (h : a < low) :
    m.get a = Config.memFill := by
  induction m generalizing low with
  | nil => rfl
  | cons p rest ih =>
    obtain ⟨addr, byte⟩ := p
    simp only [Memory.wfFrom, Bool.and_eq_true, decide_eq_true_eq, bne_iff_ne] at hw
    have hne : addr ≠ a := by omega
    simp only [Memory.get, if_neg hne]
    exact ih hw.2 (by omega)

theorem Memory.get_put_self_from {low : Nat} {m : Memory} (hw : Memory.wfFrom low m = true) (a : Nat) (v : Byte) :
    (m.put a v).get a = v := by
  induction m generalizing low with
  | nil => by_cases hv : v = Config.memFill <;> simp [Memory.put, Memory.get, hv]
  | cons p rest ih =>
    obtain ⟨addr, byte⟩ := p
    have hw' := hw
    simp only [Memory.wfFrom, Bool.and_eq_true, decide_eq_true_eq, bne_iff_ne] at hw'
    simp only [Memory.put]
    split_ifs with h1 h2 hv hv
    · have hne : addr ≠ a := by omega
      simp only [Memory.get, if_neg hne]
      exact ih hw'.2
    · rw [Memory.get_below hw'.2 (by omega), hv]
    · simp [Memory.get]
    · have hne : addr ≠ a := h2
      simp only [Memory.get, if_neg hne]
      rw [Memory.get_below hw'.2 (by omega), hv]
    · simp [Memory.get]

/-- A cell reads as the value last written to it. -/
theorem Memory.get_put_self {m : Memory} (hw : m.wf = true) (a : Nat) (v : Byte) : (m.put a v).get a = v :=
  Memory.get_put_self_from hw a v

theorem Memory.get_put {m : Memory} (hw : m.wf = true) (a c : Nat) (v : Byte) :
    (m.put a v).get c = if c = a then v else m.get c := by
  split_ifs with h
  · rw [h, Memory.get_put_self hw]
  · exact Memory.get_put_other h v m

/-- The bound of a canonical form may be lowered. -/
theorem Memory.wfFrom_mono {low low' : Nat} {m : Memory} (h : low' ≤ low) (hw : Memory.wfFrom low m = true) :
    Memory.wfFrom low' m = true := by
  cases m with
  | nil => rfl
  | cons p rest =>
    obtain ⟨addr, byte⟩ := p
    simp only [Memory.wfFrom, Bool.and_eq_true, decide_eq_true_eq, bne_iff_ne] at hw ⊢
    exact ⟨⟨⟨by omega, hw.1.1.2⟩, hw.1.2⟩, hw.2⟩

theorem Memory.wfFrom_put {low a : Nat} {m : Memory} (hl : low ≤ a) (ha : a < 256) (v : Byte)
    (hw : Memory.wfFrom low m = true) : Memory.wfFrom low (m.put a v) = true := by
  induction m generalizing low with
  | nil => by_cases hv : v = Config.memFill <;> simp [Memory.put, Memory.wfFrom, hv, hl, ha]
  | cons p rest ih =>
    obtain ⟨addr, byte⟩ := p
    have hw' := hw
    simp only [Memory.wfFrom, Bool.and_eq_true, decide_eq_true_eq, bne_iff_ne] at hw'
    simp only [Memory.put]
    split_ifs with h1 h2 hv hv
    · simp only [Memory.wfFrom, Bool.and_eq_true, decide_eq_true_eq, bne_iff_ne]
      exact ⟨hw'.1, ih (by omega) hw'.2⟩
    · exact Memory.wfFrom_mono (by omega) hw'.2
    · simp only [Memory.wfFrom, Bool.and_eq_true, decide_eq_true_eq, bne_iff_ne]
      exact ⟨⟨⟨hl, ha⟩, hv⟩, h2 ▸ hw'.2⟩
    · exact hw
    · simp only [Memory.wfFrom, Bool.and_eq_true, decide_eq_true_eq, bne_iff_ne]
      exact ⟨⟨⟨hl, ha⟩, hv⟩, ⟨⟨by omega, hw'.1.1.2⟩, hw'.1.2⟩, hw'.2⟩

/-- Setting a cell that exists keeps the canonical form. -/
theorem Memory.wf_put {m : Memory} (hw : m.wf = true) {a : Nat} (ha : a < 256) (v : Byte) : (m.put a v).wf = true :=
  Memory.wfFrom_put (Nat.zero_le a) ha v hw

/-! ### Several cells -/

theorem Memory.wf_putBytes {m : Memory} (hw : m.wf = true) (a : Nat) (bytes : List Byte) :
    (m.putBytes a bytes).wf = true := by
  induction bytes generalizing a m with
  | nil => exact hw
  | cons v rest ih =>
    simp only [Memory.putBytes]
    apply ih
    split_ifs with h
    · exact Memory.wf_put hw h v
    · exact hw

/-- What a cell holds after a sequence of bytes is stored from `a` on. -/
theorem Memory.get_putBytes {m : Memory} (hw : m.wf = true) (a c : Nat) (bytes : List Byte) :
    (m.putBytes a bytes).get c =
      if a ≤ c ∧ c < 256 then (bytes[c - a]?).getD (m.get c) else m.get c := by
  induction bytes generalizing a m with
  | nil => simp [Memory.putBytes]
  | cons v rest ih =>
    simp only [Memory.putBytes]
    have hw2 : (if a < 256 then m.put a v else m).wf = true := by
      split_ifs with h
      · exact Memory.wf_put hw h v
      · exact hw
    rw [ih hw2]
    have hget : (if a < 256 then m.put a v else m).get c = if c = a ∧ a < 256 then v else m.get c := by
      by_cases h : a < 256
      · simp [h, Memory.get_put hw]
      · simp [h]
    rw [hget]
    rcases Nat.lt_trichotomy c a with h | h | h
    · rw [if_neg (by omega), if_neg (by omega), if_neg (by omega)]
    · subst h
      by_cases hc : c < 256
      · simp [hc]
      · simp [hc]
    · obtain ⟨k, rfl⟩ : ∃ k, c = a + 1 + k := ⟨c - (a + 1), by omega⟩
      have e1 : a + 1 + k - (a + 1) = k := by omega
      have e2 : a + 1 + k - a = k + 1 := by omega
      rw [if_neg (show ¬(a + 1 + k = a ∧ a < 256) by omega), e1, e2, List.getElem?_cons_succ]
      by_cases hc : a + 1 + k < 256
      · rw [if_pos ⟨by omega, hc⟩, if_pos ⟨by omega, hc⟩]
      · rw [if_neg (by omega), if_neg (by omega)]

/-! ### The primitives -/

theorem outOfRange_eq_false {a : Nat} (h : a < 256) : outOfRange (a : Int) = false := by
  simp [outOfRange]; omega

theorem outOfRange_eq_true {a : Nat} (h : 256 ≤ a) : outOfRange (a : Int) = true := by
  simp [outOfRange]; omega

theorem memRead_ok (s : State) {a : Nat} (h : a < 256) : memRead s (a : Int) = .ok (s.readByte a) := by
  simp [memRead, outOfRange_eq_false h, State.readByte]

theorem memRead_error (s : State) {a : Nat} (h : 256 ≤ a) : memRead s (a : Int) = .error (.memoryOutOfBounds a) := by
  simp [memRead, outOfRange_eq_true h]

theorem memWrite_ok (s : State) {a : Nat} (v : Byte) (h : a < 256) :
    memWrite s (a : Int) v = .ok { s with mem := s.mem.put a v } := by
  simp [memWrite, outOfRange_eq_false h]

/-- Everything a memory write can do. -/
theorem memWrite_inv {s t : State} {addr : Int} {v : Byte} (h : memWrite s addr v = .ok t) :
    0 ≤ addr ∧ addr ≤ 255 ∧ t = { s with mem := s.mem.put addr.toNat v } := by
  unfold memWrite at h
  split at h
  · cases h
  · next hr =>
    simp [outOfRange] at hr
    exact ⟨hr.1, hr.2, by simpa using h.symm⟩

/-- A write that succeeds keeps the canonical form. -/
theorem memWrite_keeps_wf {s t : State} {addr : Int} {v : Byte} (h : memWrite s addr v = .ok t)
    (hw : s.mem.wf = true) : t.mem.wf = true := by
  obtain ⟨h0, h1, rfl⟩ := memWrite_inv h
  exact Memory.wf_put hw (by omega) v

/-- Reset memory is in canonical form, and so is loaded memory. -/
theorem State.reset_mem_wf : State.reset.mem.wf = true := rfl

theorem State.load_keeps_wf {s : State} (hw : s.mem.wf = true) (image : List Byte) : (s.load image).mem.wf = true :=
  Memory.wf_putBytes hw 0 image

end Sys2Proof.Machine
end

