-- ==== Sys2Proof/Laws/Ops.lean ====
section
/-! SUPPORT. The spec lemmas of the shared operations: for each, everything it can answer, said once. -/

namespace Sys2Proof.Machine

/-! ### Register operands -/

theorem validIndex_iff (a : Byte) : validIndex a = true ↔ a.toNat < 8 := by simp [validIndex]

/-- An index byte of 0..7 names its register. -/
theorem chkreg_of_lt {a : Byte} (h : a.toNat < 8) : chkreg a = .ok ⟨a.toNat, h⟩ := by simp [chkreg, h]

theorem chkreg_of_eq {a : Byte} {r : Fin 8} (h : a.toNat = r.val) : chkreg a = .ok r := by
  have hlt : a.toNat < 8 := by omega
  rw [chkreg_of_lt hlt]
  exact congrArg Except.ok (Fin.ext h)

theorem chkreg_of_ge {a : Byte} (h : 8 ≤ a.toNat) : chkreg a = .error (.registerOutOfBounds a) := by
  simp [chkreg, Nat.not_lt.mpr h]

/-- Everything a register check can answer. -/
theorem chkreg_cases (a : Byte) :
    (∃ r : Fin 8, a.toNat = r.val ∧ chkreg a = .ok r) ∨
      (8 ≤ a.toNat ∧ chkreg a = .error (.registerOutOfBounds a)) := by
  rcases Nat.lt_or_ge a.toNat 8 with h | h
  · exact .inl ⟨⟨a.toNat, h⟩, rfl, chkreg_of_lt h⟩
  · exact .inr ⟨h, chkreg_of_ge h⟩

theorem chkregs_of_eq {a b : Byte} {ra rb : Fin 8} (ha : a.toNat = ra.val) (hb : b.toNat = rb.val) :
    chkregs a b = .ok (ra, rb) := by
  simp [chkregs, chkreg_of_eq ha, chkreg_of_eq hb, bind, Except.bind, pure, Except.pure]

/-- Everything the check of two register operands can answer; `a` is checked first. -/
theorem chkregs_cases (a b : Byte) :
    (∃ ra rb : Fin 8, a.toNat = ra.val ∧ b.toNat = rb.val ∧ chkregs a b = .ok (ra, rb)) ∨
      (8 ≤ a.toNat ∧ chkregs a b = .error (.registerOutOfBounds a)) ∨
      (a.toNat < 8 ∧ 8 ≤ b.toNat ∧ chkregs a b = .error (.registerOutOfBounds b)) := by
  rcases chkreg_cases a with ⟨ra, ha, ea⟩ | ⟨ha, ea⟩
  · rcases chkreg_cases b with ⟨rb, hb, eb⟩ | ⟨hb, eb⟩
    · exact .inl ⟨ra, rb, ha, hb, chkregs_of_eq ha hb⟩
    · exact .inr (.inr ⟨by omega, hb, by simp [chkregs, ea, eb, bind, Except.bind]⟩)
  · exact .inr (.inl ⟨ha, by simp [chkregs, ea, bind, Except.bind]⟩)

/-! ### The stack pointer engine -/

/-- Everything the decrement of SP can answer. -/
theorem decSp_cases (s : State) :
    (s.sp.toNat = 0 ∧ decSp s = .error (.memoryOutOfBounds (-1))) ∨
      (s.sp.toNat ≠ 0 ∧ decSp s = .ok (s.setReg 7 (BitVec.ofNat 8 (s.sp.toNat - 1)))) := by
  by_cases h : s.sp.toNat = 0
  · exact .inl ⟨h, by simp [decSp, h]⟩
  · exact .inr ⟨h, by simp [decSp, h, State.setSp_eq]⟩

/-- A store at SP always finds a cell. -/
theorem storeAtSp_eq (s : State) (v : Byte) :
    storeAtSp s v = .ok { s with mem := s.mem.put s.sp.toNat v } :=
  memWrite_ok s v s.sp.isLt

/-- Everything the range-checked setting of SP after a pop can answer. -/
theorem setSpAfter_cases (s : State) (base : Byte) :
    (base.toNat = 255 ∧ setSpAfter s base = .error (.memoryOutOfBounds 256)) ∨
      (base.toNat < 255 ∧ setSpAfter s base = .ok (s.setReg 7 (BitVec.ofNat 8 (base.toNat + 1)))) := by
  have hb : base.toNat < 256 := base.isLt
  by_cases h : base.toNat = 255
  · exact .inl ⟨h, by simp [setSpAfter, h]⟩
  · refine .inr ⟨by omega, ?_⟩
    have : ¬255 < base.toNat + 1 := by omega
    simp [setSpAfter, this, State.setSp_eq]

/-- A read at SP always finds a cell. -/
theorem memRead_sp (s : State) : memRead s (s.sp.toNat : Int) = .ok (s.readByte s.sp.toNat) :=
  memRead_ok s s.sp.isLt

/-- Everything a pop can answer. -/
theorem popByte_cases (s : State) :
    (s.sp.toNat = 255 ∧ popByte s = .error (.memoryOutOfBounds 256)) ∨
      (s.sp.toNat < 255 ∧
        popByte s = .ok (s.readByte s.sp.toNat, s.setReg 7 (BitVec.ofNat 8 (s.sp.toNat + 1)))) := by
  rcases setSpAfter_cases s s.sp with ⟨h, e⟩ | ⟨h, e⟩
  · exact .inl ⟨h, by simp only [popByte, memRead_sp, e, bind, Except.bind]⟩
  · exact .inr ⟨h, by simp only [popByte, memRead_sp, e, bind, Except.bind, pure, Except.pure]⟩

/-- Everything the return address of a CALL can be. -/
theorem returnAddress_cases (s : State) :
    (254 ≤ s.pc ∧ returnAddress s = .error (.memoryOutOfBounds ((s.pc + 2 : Nat) : Int))) ∨
      (s.pc ≤ 253 ∧ returnAddress s = .ok (BitVec.ofNat 8 (s.pc + 2))) := by
  by_cases h : 255 < s.pc + 2
  · exact .inl ⟨by omega, by simp only [returnAddress, if_pos h]⟩
  · exact .inr ⟨by omega, by simp only [returnAddress, if_neg h]⟩

/-! ### Committing a rule -/

@[simp] theorem State.commit_ok (s t : State) : s.commit (.ok t) = .next t := rfl

@[simp] theorem State.commit_error (s : State) (f : Fault) : s.commit (.error f) = .next (s.raise f) := rfl

/-- Everything an instruction's rule can end in: the state it computed, or the fault taken in the state it started
from. -/
theorem State.commit_cases {s t : State} {r : Except Fault State} (h : s.commit r = .next t) :
    r = .ok t ∨ ∃ f, r = .error f ∧ t = s.raise f := by
  cases r with
  | ok u => exact .inl (by simpa using h)
  | error f => exact .inr ⟨f, rfl, by simpa using h.symm⟩

/-- A rule's end is a next state, whatever the rule answered. -/
theorem State.commit_next (s : State) (r : Except Fault State) : ∃ t, s.commit r = .next t := by
  cases r with
  | ok u => exact ⟨u, rfl⟩
  | error f => exact ⟨s.raise f, rfl⟩

/-! ### Comparison -/

/-- A comparison sets exactly one of the three bits, the one its operands' order names. -/
theorem compareFlags_cases (u v : Byte) :
    (u.toNat = v.toNat ∧ compareFlags u v = 0x01) ∨ (v.toNat < u.toNat ∧ compareFlags u v = 0x02) ∨
      (u.toNat < v.toNat ∧ compareFlags u v = 0x04) := by
  rcases Nat.lt_trichotomy u.toNat v.toNat with h | h | h
  · exact .inr (.inr ⟨h, by simp [compareFlags, Nat.ne_of_lt h, Nat.lt_asymm h]⟩)
  · exact .inl ⟨h, by simp [compareFlags, h]⟩
  · exact .inr (.inl ⟨h, by simp [compareFlags, Nat.ne_of_gt h, h]⟩)

theorem legalFlags_compareFlags (u v : Byte) : legalFlags (compareFlags u v) = true := by
  rcases compareFlags_cases u v with ⟨-, e⟩ | ⟨-, e⟩ | ⟨-, e⟩ <;> rw [e] <;> decide

end Sys2Proof.Machine
end

