-- ==== Sys2Proof/Laws/Exec.lean ====
section
/-! SUPPORT. What an instruction can do, said once: `Effect i s t` is its own effect, and `exec_cases` says that an
execution that answers `t` had that effect or took a fault. -/

namespace Sys2Proof.Machine

/-- The state after a byte is stored at the SP that a push leaves. -/
def State.pushed (s : State) (v : Byte) : State :=
  { s.setReg 7 (BitVec.ofNat 8 (s.sp.toNat - 1)) with mem := s.mem.put (s.sp.toNat - 1) v }

/-- The value PUSH stores: the register read after SP has moved. -/
def State.pushValue (s : State) (r : Fin 8) : Byte := (s.setReg 7 (BitVec.ofNat 8 (s.sp.toNat - 1))).getReg r

/-- The effect of an instruction that completes, with the conditions on which it does. -/
def Effect (i : Instr) (s t : State) : Prop :=
  match i with
  | .hlt => t = s.halt.advance 0
  | .ldi a imm => ∃ r : Fin 8, a.toNat = r.val ∧ t = (s.setReg r imm).advance 2
  | .prn a => ∃ r : Fin 8, a.toNat = r.val ∧ t = (s.emit (s.getReg r)).advance 1
  | .mul a b => ∃ ra rb : Fin 8, a.toNat = ra.val ∧ b.toNat = rb.val ∧
      t = (s.setReg ra (mulMod (s.getReg ra) (s.getReg rb))).advance 2
  | .add a b => ∃ ra rb : Fin 8, a.toNat = ra.val ∧ b.toNat = rb.val ∧
      t = (s.setReg ra (addMod (s.getReg ra) (s.getReg rb))).advance 2
  | .cmp a b => ∃ ra rb : Fin 8, a.toNat = ra.val ∧ b.toNat = rb.val ∧
      t = { s with fl := compareFlags (s.getReg ra) (s.getReg rb), pc := s.pc + 3 }
  | .push a => ∃ r : Fin 8, a.toNat = r.val ∧ s.sp.toNat ≠ 0 ∧ t = (s.pushed (s.pushValue r)).advance 1
  | .pop a => ∃ r : Fin 8, a.toNat = r.val ∧
      (if r = 7 then s.readByte s.sp.toNat else s.sp).toNat < 255 ∧
      t = ((s.setReg r (s.readByte s.sp.toNat)).setReg 7
        (BitVec.ofNat 8 ((if r = 7 then s.readByte s.sp.toNat else s.sp).toNat + 1))).advance 1
  | .call a => ∃ r : Fin 8, a.toNat = r.val ∧ s.sp.toNat ≠ 0 ∧ s.pc ≤ 253 ∧
      t = (s.pushed (BitVec.ofNat 8 (s.pc + 2))).jumpTo (s.pushValue r)
  | .ret => s.sp.toNat < 255 ∧
      t = (s.setReg 7 (BitVec.ofNat 8 (s.sp.toNat + 1))).jumpTo (s.readByte s.sp.toNat)
  | .jmp a => ∃ r : Fin 8, a.toNat = r.val ∧ t = s.jumpTo (s.getReg r)
  | .jeq a => ∃ r : Fin 8, a.toNat = r.val ∧ t = if flagE s.fl then s.jumpTo (s.getReg r) else s.advance 1
  | .jne a => ∃ r : Fin 8, a.toNat = r.val ∧ t = if flagE s.fl then s.advance 1 else s.jumpTo (s.getReg r)

/-- The faults an instruction's rule can raise; the return address of a CALL that a step has fetched is at most 256. -/
def Raises (i : Instr) (s : State) (f : Fault) : Prop :=
  (∃ b, firstBadIndex i = some b ∧ f = .registerOutOfBounds b) ∨
    (f = .memoryOutOfBounds (-1) ∧ s.sp.toNat = 0) ∨ f = .memoryOutOfBounds 256 ∨
    (254 ≤ s.pc ∧ i.opcode = .call ∧ f = .memoryOutOfBounds ((s.pc + 2 : Nat) : Int))

/-- The stored byte of a push lands at the SP the decrement leaves. -/
theorem pushed_toNat (s : State) :
    (BitVec.ofNat 8 (s.sp.toNat - 1)).toNat = s.sp.toNat - 1 := by
  have := s.sp.isLt
  simp only [BitVec.toNat_ofNat]; omega

/-- The two halves of a push together. -/
theorem storeAtSp_setReg (s : State) (v : Byte) :
    storeAtSp (s.setReg 7 (BitVec.ofNat 8 (s.sp.toNat - 1))) v = .ok (s.pushed v) := by
  rw [storeAtSp_eq, State.sp_setReg_seven, pushed_toNat]; rfl

theorem badIndex_raises {i : Instr} {s : State} {b : Byte} (h : firstBadIndex i = some b) :
    Raises i s (.registerOutOfBounds b) := .inl ⟨b, h, rfl⟩

theorem find_bad_one {a : Byte} (h : 8 ≤ a.toNat) : [a].find? (!validIndex ·) = some a := by
  simp [validIndex, h]

/-- A first bad index is an operand byte that names no register. -/
theorem firstBadIndex_ge {i : Instr} {b : Byte} (h : firstBadIndex i = some b) : 8 ≤ b.toNat := by
  have key : ∀ l : List Byte, l.find? (!validIndex ·) = some b → 8 ≤ b.toNat := by
    intro l hl
    have := List.find?_some hl
    simpa [validIndex] using this
  cases i <;> simp only [firstBadIndex] at h <;> first | exact key _ h | cases h

/-- A well-formed instruction has no bad index. -/
theorem firstBadIndex_of_wellFormed {i : Instr} (h : i.wellFormed = true) : firstBadIndex i = none := by
  cases i <;> simp_all [firstBadIndex, Instr.wellFormed]

theorem aluRule_cases (tag : AluTag) (a b : Byte) (s : State) :
    (∃ ra rb : Fin 8, a.toNat = ra.val ∧ b.toNat = rb.val ∧
        aluRule tag a b s = (alu tag ra rb s).map (·.advance 2)) ∨
      (∃ c, [a, b].find? (!validIndex ·) = some c ∧ aluRule tag a b s = .error (.registerOutOfBounds c)) := by
  rcases chkregs_cases a b with ⟨ra, rb, ha, hb, e⟩ | ⟨ha, e⟩ | ⟨ha, hb, e⟩
  · refine .inl ⟨ra, rb, ha, hb, ?_⟩
    simp only [aluRule, e, bind, Except.bind, pure, Except.pure]
    cases alu tag ra rb s <;> rfl
  · exact .inr ⟨a, by simp [validIndex, ha], by simp only [aluRule, e, bind, Except.bind]⟩
  · exact .inr ⟨b, by simp [validIndex, ha, hb], by simp only [aluRule, e, bind, Except.bind]⟩

theorem branchRule_cases (taken : Bool) (a : Byte) (s : State) :
    (∃ r : Fin 8, a.toNat = r.val ∧
        branchRule taken a s = .ok (if taken then s.jumpTo (s.getReg r) else s.advance 1)) ∨
      (8 ≤ a.toNat ∧ branchRule taken a s = .error (.registerOutOfBounds a)) := by
  rcases chkreg_cases a with ⟨r, ha, e⟩ | ⟨ha, e⟩
  · exact .inl ⟨r, ha, by simp only [branchRule, e, bind, Except.bind, pure, Except.pure]⟩
  · exact .inr ⟨ha, by simp only [branchRule, e, bind, Except.bind]⟩

/-- Everything an execution can do: answer a state that has the instruction's effect, or the state it started from with
a fault of its rule taken. -/
theorem exec_cases (i : Instr) (s : State) :
    (∃ t, exec i s = .next t ∧ Effect i s t) ∨ (∃ f, exec i s = .next (s.raise f) ∧ Raises i s f) := by
  cases i with
  | hlt => exact .inl ⟨_, rfl, rfl⟩
  | ldi a imm =>
    rcases chkreg_cases a with ⟨r, ha, e⟩ | ⟨ha, e⟩
    · exact .inl ⟨_, by simp only [exec, execLdi, e, immediate, bind, Except.bind, pure, Except.pure, State.commit_ok], r, ha, rfl⟩
    · exact .inr ⟨_, by simp only [exec, execLdi, e, bind, Except.bind, State.commit_error], badIndex_raises (find_bad_one ha)⟩
  | prn a =>
    rcases chkreg_cases a with ⟨r, ha, e⟩ | ⟨ha, e⟩
    · exact .inl ⟨_, by simp only [exec, execPrn, e, bind, Except.bind, pure, Except.pure, State.commit_ok], r, ha, rfl⟩
    · exact .inr ⟨_, by simp only [exec, execPrn, e, bind, Except.bind, State.commit_error], badIndex_raises (find_bad_one ha)⟩
  | mul a b =>
    rcases aluRule_cases .mul a b s with ⟨ra, rb, ha, hb, e⟩ | ⟨c, hc, e⟩
    · exact .inl ⟨_, by simp only [exec, execMul, e, alu, Except.map, State.commit_ok], ra, rb, ha, hb, rfl⟩
    · exact .inr ⟨_, by simp only [exec, execMul, e, State.commit_error], badIndex_raises hc⟩
  | add a b =>
    rcases aluRule_cases .add a b s with ⟨ra, rb, ha, hb, e⟩ | ⟨c, hc, e⟩
    · exact .inl ⟨_, by simp only [exec, execAdd, e, alu, Except.map, State.commit_ok], ra, rb, ha, hb, rfl⟩
    · exact .inr ⟨_, by simp only [exec, execAdd, e, State.commit_error], badIndex_raises hc⟩
  | cmp a b =>
    rcases aluRule_cases .cmp a b s with ⟨ra, rb, ha, hb, e⟩ | ⟨c, hc, e⟩
    · exact .inl ⟨_, by simp only [exec, execCmp, e, alu, Except.map, State.commit_ok]; rfl, ra, rb, ha, hb, rfl⟩
    · exact .inr ⟨_, by simp only [exec, execCmp, e, State.commit_error], badIndex_raises hc⟩
  | push a =>
    rcases chkreg_cases a with ⟨r, ha, e⟩ | ⟨ha, e⟩
    · rcases decSp_cases s with ⟨hs, d⟩ | ⟨hs, d⟩
      · exact .inr ⟨_, by simp only [exec, execPush, e, d, bind, Except.bind, State.commit_error], .inr (.inl ⟨rfl, hs⟩)⟩
      · refine .inl ⟨_, ?_, r, ha, hs, rfl⟩
        simp only [exec, execPush, e, d, storeAtSp_setReg, bind, Except.bind, pure, Except.pure, State.commit_ok, State.pushValue]
    · exact .inr ⟨_, by simp only [exec, execPush, e, bind, Except.bind, State.commit_error], badIndex_raises (find_bad_one ha)⟩
  | pop a =>
    rcases chkreg_cases a with ⟨r, ha, e⟩ | ⟨ha, e⟩
    · have hsp : (s.setReg r (s.readByte s.sp.toNat)).sp = if r = 7 then s.readByte s.sp.toNat else s.sp := by
        simp only [State.sp_eq, State.getReg_setReg]
      rcases setSpAfter_cases (s.setReg r (s.readByte s.sp.toNat)) (s.setReg r (s.readByte s.sp.toNat)).sp with ⟨hv, d⟩ | ⟨hv, d⟩
      · exact .inr ⟨_, by simp only [exec, execPop, e, memRead_sp, d, bind, Except.bind, State.commit_error], .inr (.inr (.inl rfl))⟩
      · have hx : exec (.pop a) s = .next (((s.setReg r (s.readByte s.sp.toNat)).setReg 7
            (BitVec.ofNat 8 ((s.setReg r (s.readByte s.sp.toNat)).sp.toNat + 1))).advance 1) := by
          simp only [exec, execPop, e, memRead_sp, d, bind, Except.bind, pure, Except.pure, State.commit_ok]
        refine .inl ⟨_, hx, r, ha, ?_, ?_⟩
        · rw [← hsp]; exact hv
        · rw [hsp]
    · exact .inr ⟨_, by simp only [exec, execPop, e, bind, Except.bind, State.commit_error], badIndex_raises (find_bad_one ha)⟩
  | call a =>
    rcases chkreg_cases a with ⟨r, ha, e⟩ | ⟨ha, e⟩
    · rcases decSp_cases s with ⟨hs, d⟩ | ⟨hs, d⟩
      · exact .inr ⟨_, by simp only [exec, execCall, e, d, bind, Except.bind, State.commit_error], .inr (.inl ⟨rfl, hs⟩)⟩
      · rcases returnAddress_cases s with ⟨hp, q⟩ | ⟨hp, q⟩
        · exact .inr ⟨_, by simp only [exec, execCall, e, d, q, bind, Except.bind, State.commit_error], .inr (.inr (.inr ⟨hp, rfl, rfl⟩))⟩
        · refine .inl ⟨_, ?_, r, ha, hs, hp, rfl⟩
          simp only [exec, execCall, e, d, q, storeAtSp_setReg, bind, Except.bind, pure, Except.pure, State.commit_ok]
          rfl
    · exact .inr ⟨_, by simp only [exec, execCall, e, bind, Except.bind, State.commit_error], badIndex_raises (find_bad_one ha)⟩
  | ret =>
    rcases popByte_cases s with ⟨hs, e⟩ | ⟨hs, e⟩
    · exact .inr ⟨_, by simp only [exec, execRet, e, bind, Except.bind, State.commit_error], .inr (.inr (.inl rfl))⟩
    · exact .inl ⟨_, by simp only [exec, execRet, e, bind, Except.bind, pure, Except.pure, State.commit_ok], hs, rfl⟩
  | jmp a =>
    rcases chkreg_cases a with ⟨r, ha, e⟩ | ⟨ha, e⟩
    · exact .inl ⟨_, by simp only [exec, execJmp, e, bind, Except.bind, pure, Except.pure, State.commit_ok], r, ha, rfl⟩
    · exact .inr ⟨_, by simp only [exec, execJmp, e, bind, Except.bind, State.commit_error], badIndex_raises (find_bad_one ha)⟩
  | jeq a =>
    rcases branchRule_cases (flagE s.fl) a s with ⟨r, ha, e⟩ | ⟨ha, e⟩
    · exact .inl ⟨_, by simp only [exec, execJeq, e, State.commit_ok], r, ha, rfl⟩
    · exact .inr ⟨_, by simp only [exec, execJeq, e, State.commit_error], badIndex_raises (find_bad_one ha)⟩
  | jne a =>
    rcases branchRule_cases (!flagE s.fl) a s with ⟨r, ha, e⟩ | ⟨ha, e⟩
    · have hx : exec (.jne a) s = .next (if flagE s.fl then s.advance 1 else s.jumpTo (s.getReg r)) := by
        simp only [exec, execJne, e, State.commit_ok]
        cases flagE s.fl <;> rfl
      exact .inl ⟨_, hx, r, ha, rfl⟩
    · exact .inr ⟨_, by simp only [exec, execJne, e, State.commit_error], badIndex_raises (find_bad_one ha)⟩

/-- The inversion of an execution that answered `t`. -/
theorem exec_inv {i : Instr} {s t : State} (h : exec i s = .next t) :
    Effect i s t ∨ ∃ f, t = s.raise f ∧ Raises i s f := by
  rcases exec_cases i s with ⟨u, e, he⟩ | ⟨f, e, hf⟩
  · rw [e] at h; cases h; exact .inl he
  · rw [e] at h; cases h; exact .inr ⟨f, rfl, hf⟩

end Sys2Proof.Machine
end

