-- ==== Sys2Proof/Laws/Interface.lean ====
section
/-! SUPPORT. What the diagnostic port answers: its two-digit texts, and one lemma per field. -/

namespace Sys2Proof.Machine

/-- The text of a byte is two characters. -/
@[simp] theorem hexByte_length (b : Byte) : (hexByte b).length = 2 := rfl

/-- Different bytes have different texts. -/
theorem hexByte_injective (b c : Byte) (h : hexByte b = hexByte c) : b = c := by
  have digit : ∀ m n : Fin 16, hexDigit m = hexDigit n → m = n := by decide
  have hb := b.isLt
  have hc := c.isLt
  simp only [hexByte, List.cons.injEq, and_true] at h
  have hi := digit ⟨b.toNat / 16, by omega⟩ ⟨c.toNat / 16, by omega⟩ h.1
  have lo := digit ⟨b.toNat % 16, by omega⟩ ⟨c.toNat % 16, by omega⟩ h.2
  simp only [Fin.mk.injEq] at hi lo
  exact BitVec.eq_of_toNat_eq (by omega)

/-- A pc that fits in a byte is rendered as that byte. -/
theorem hexPc_of_lt {pc : Nat} (h : pc < 256) : hexPc pc = hexByte (BitVec.ofNat 8 pc) := if_pos h

theorem diagnosticPort_pc (s : State) : (diagnosticPort s).pc = hexPc s.pc := rfl

theorem diagnosticPort_bytes (s : State) :
    (diagnosticPort s).bytes = [s.pc, s.pc + 1, s.pc + 2].map
      (fun a => if a < 256 then some (hexByte (s.readByte a)) else none) := by
  simp only [diagnosticPort, Diagnosis.render, diagnose, List.map_map]
  refine List.map_congr_left fun a _ => ?_
  simp only [Function.comp]
  split_ifs <;> rfl

theorem diagnosticPort_regs (s : State) : (diagnosticPort s).regs = s.x.toList.map hexByte := rfl

end Sys2Proof.Machine
end

