-- ==== Sys2Proof/Laws/PerInstr.lean ====
section
/-! SUPPORT. The per-instruction law family EncodeLength: an instruction is one to three bytes long, its opcode byte and
as many operand bytes as its opcode has (30_encoding.md R70). -/

namespace Sys2Proof.Laws.EncodeLength

/-- The encoding has one byte more than the opcode's operand count, and at most three. -/
def Statement (i : Instr) : Prop :=
  (encode i).length = 1 + i.opcode.operandCount ∧ (encode i).length ≤ 3

theorem hlt : Statement .hlt := ⟨rfl, by decide⟩
theorem ldi (a imm : Byte) : Statement (.ldi a imm) := ⟨rfl, by simp [encode, Instr.operands]⟩
theorem prn (a : Byte) : Statement (.prn a) := ⟨rfl, by simp [encode, Instr.operands]⟩
theorem mul (a b : Byte) : Statement (.mul a b) := ⟨rfl, by simp [encode, Instr.operands]⟩
theorem add (a b : Byte) : Statement (.add a b) := ⟨rfl, by simp [encode, Instr.operands]⟩
theorem cmp (a b : Byte) : Statement (.cmp a b) := ⟨rfl, by simp [encode, Instr.operands]⟩
theorem push (a : Byte) : Statement (.push a) := ⟨rfl, by simp [encode, Instr.operands]⟩
theorem pop (a : Byte) : Statement (.pop a) := ⟨rfl, by simp [encode, Instr.operands]⟩
theorem call (a : Byte) : Statement (.call a) := ⟨rfl, by simp [encode, Instr.operands]⟩
theorem ret : Statement .ret := ⟨rfl, by decide⟩
theorem jmp (a : Byte) : Statement (.jmp a) := ⟨rfl, by simp [encode, Instr.operands]⟩
theorem jeq (a : Byte) : Statement (.jeq a) := ⟨rfl, by simp [encode, Instr.operands]⟩
theorem jne (a : Byte) : Statement (.jne a) := ⟨rfl, by simp [encode, Instr.operands]⟩

end Sys2Proof.Laws.EncodeLength
end

