-- ==== Sys2Proof/Laws/Step.lean ====
section
/-! SUPPORT. What a fetch and a step can do, said once. -/

namespace Sys2Proof.Machine

/-- Everything a fetch can answer: the instruction whose bytes stand at the pc, with its latches; or the fault of the
opcode fetch, of an unknown opcode, or of the first operand fetch past 255. -/
theorem fetch_cases (s : State) :
    (256 ≤ s.pc ∧ fetch s = .error (.memoryOutOfBounds s.pc)) ∨
    (s.pc < 256 ∧ decodeOpcode (s.readByte s.pc) = none ∧ fetch s = .error (.unknownInstruction (s.readByte s.pc))) ∨
    (s.pc < 256 ∧ ∃ op, decodeOpcode (s.readByte s.pc) = some op ∧ 256 ≤ s.pc + op.operandCount ∧
      fetch s = .error (.memoryOutOfBounds 256)) ∨
    (∃ op, decodeOpcode (s.readByte s.pc) = some op ∧ s.pc + op.operandCount < 256 ∧
      fetch s = .ok (op.assemble (s.readByte (s.pc + 1)) (s.readByte (s.pc + 2)),
        s.latched (op.assemble (s.readByte (s.pc + 1)) (s.readByte (s.pc + 2))))) := by
  rcases Nat.lt_or_ge s.pc 256 with hp | hp
  swap
  · exact .inl ⟨hp, by simp only [fetch, memRead_error s hp, bind, Except.bind]⟩
  refine .inr ?_
  cases hd : decodeOpcode (s.readByte s.pc) with
  | none => exact .inl ⟨hp, rfl, by simp only [fetch, memRead_ok s hp, hd, bind, Except.bind]⟩
  | some op =>
    refine .inr ?_
    have hop := opcodeOf_of_decodeOpcode hd
    rcases Nat.lt_or_ge (s.pc + op.operandCount) 256 with hn | hn
    · refine .inr ⟨op, rfl, hn, ?_⟩
      rcases hc : op.operandCount with _ | _ | k
      · simp only [fetch, memRead_ok s hp, hd, hc, bind, Except.bind, pure, Except.pure]
        cases op <;> first | (simp [Opcode.operandCount] at hc; done) | (simp only [hop]; rfl)
      · rw [hc] at hn
        simp only [fetch, memRead_ok s hp, hd, hc, memRead_ok s (show s.pc + 1 < 256 by omega), bind, Except.bind, pure, Except.pure]
        cases op <;> first | (simp [Opcode.operandCount] at hc; done) | (simp only [hop]; rfl)
      · have hk : k = 0 := by have := operandCount_le op; omega
        subst hk
        rw [hc] at hn
        simp only [fetch, memRead_ok s hp, hd, hc, memRead_ok s (show s.pc + 1 < 256 by omega),
          memRead_ok s (show s.pc + 2 < 256 by omega), bind, Except.bind, pure, Except.pure]
        cases op <;> first | (simp [Opcode.operandCount] at hc; done) | (simp only [hop]; rfl)
    · refine .inl ⟨hp, op, rfl, hn, ?_⟩
      rcases hc : op.operandCount with _ | _ | k
      · omega
      · have h255 : s.pc = 255 := by omega
        have e1 : s.pc + 1 = 256 := by omega
        simp only [fetch, memRead_ok s hp, hd, hc, e1, memRead_error s (Nat.le_refl 256), bind, Except.bind]
        rfl
      · have hk : k = 0 := by have := operandCount_le op; omega
        subst hk
        rcases Nat.lt_or_ge s.pc 255 with h | h
        · have e2 : s.pc + 2 = 256 := by omega
          simp only [fetch, memRead_ok s hp, hd, hc, memRead_ok s (show s.pc + 1 < 256 by omega), e2,
            memRead_error s (Nat.le_refl 256), bind, Except.bind]
          rfl
        · have e1 : s.pc + 1 = 256 := by omega
          simp only [fetch, memRead_ok s hp, hd, hc, e1, memRead_error s (Nat.le_refl 256), bind, Except.bind]
          rfl

/-- A fetched instruction's bytes all lie in memory, and the state it comes with differs from the fetching one in its
latches alone. -/
theorem fetch_ok_inv {s u : State} {i : Instr} (h : fetch s = .ok (i, u)) :
    u = s.latched i ∧ s.pc + i.opcode.operandCount < 256 := by
  rcases fetch_cases s with ⟨-, e⟩ | ⟨-, -, e⟩ | ⟨-, op, -, -, e⟩ | ⟨op, -, hn, e⟩ <;> rw [e] at h <;> cases h
  exact ⟨rfl, by simpa using hn⟩

/-- A fault of the fetch is one the spec gives the step cycle, when the pc is one the machine can have. -/
theorem fetch_error_legal {s : State} {f : Fault} (hp : s.pc ≤ 256) (h : fetch s = .error f) : legalFault f = true := by
  rcases fetch_cases s with ⟨hq, e⟩ | ⟨-, hd, e⟩ | ⟨-, op, -, -, e⟩ | ⟨op, -, hn, e⟩ <;> rw [e] at h <;> cases h
  · have : s.pc = 256 := by omega
    simp [legalFault, this]
  · simp [legalFault, hd]
  · rfl

/-- Everything a step can do. -/
theorem step_cases (s : State) :
    (s.run ≠ .running ∧ step s = .next s) ∨
    (s.run = .running ∧ ∃ f, fetch s = .error f ∧ step s = .next (s.raise f).clearLatches) ∨
    (s.run = .running ∧ ∃ i, fetch s = .ok (i, s.latched i) ∧ s.pc + i.opcode.operandCount < 256 ∧
      ∃ t, exec i (s.latched i) = .next t ∧ step s = .next t.clearLatches) := by
  cases hr : s.run with
  | halted => exact .inl ⟨by simp, by simp [step, hr]⟩
  | faulted f => exact .inl ⟨by simp, by simp [step, hr]⟩
  | running =>
    refine .inr ?_
    cases hf : fetch s with
    | error f => exact .inl ⟨rfl, f, rfl, by simp [step, hr, hf, endStep]⟩
    | ok p =>
      obtain ⟨i, u⟩ := p
      obtain ⟨rfl, hn⟩ := fetch_ok_inv hf
      obtain ⟨t, ht⟩ : ∃ t, exec i (s.latched i) = .next t := by
        rcases exec_cases i (s.latched i) with ⟨t, e, -⟩ | ⟨f, e, -⟩
        · exact ⟨t, e⟩
        · exact ⟨_, e⟩
      exact .inr ⟨rfl, i, rfl, hn, t, ht, by simp [step, hr, hf, ht, endStep]⟩

end Sys2Proof.Machine
end

