-- ==== Sys2Proof/Tests/Slice0.lean ====
section
/-! SUPPORT. Tests. Expected results are the vectors of 95_test_vectors.md (named in each comment) or follow by hand from
the rule named. Then, for every statement that has hypotheses, a witness that meets them, at boundary values. -/

namespace Sys2Proof.Tests

open Sys2Proof.Machine

/-- The state an outcome answers. -/
def after : Host.Outcome State Fault Refusal → Option State
  | .next t => some t
  | .fault _ => none
  | .refused _ => none

/-- The reset state with the pc set and bytes stored from an address on. -/
def at_ (pc : Nat) (addr : Nat) (bytes : List Byte) : State :=
  { State.reset with pc := pc, mem := Memory.putBytes addr bytes [] }

/-- Set a register of a test state. -/
def reg (s : State) (i : Fin 8) (v : Byte) : State := s.setReg i v

/-- A fault record. -/
def rec_ (kind : Fault) (pc : Nat) : RunState := .faulted ⟨kind, pc⟩

/-! ### WellFormed: each check refuses an ill-formed term -/

theorem test_wf_ldi : Instr.wellFormed (.ldi 8 0) = false ∧ Instr.wellFormed (.ldi 7 255) = true := by decide
theorem test_wf_prn : Instr.wellFormed (.prn 8) = false := by decide
theorem test_wf_mul : Instr.wellFormed (.mul 8 0) = false ∧ Instr.wellFormed (.mul 0 8) = false := by decide
theorem test_wf_add : Instr.wellFormed (.add 255 0) = false ∧ Instr.wellFormed (.add 0 255) = false := by decide
theorem test_wf_cmp : Instr.wellFormed (.cmp 9 0) = false ∧ Instr.wellFormed (.cmp 0 9) = false := by decide
theorem test_wf_push : Instr.wellFormed (.push 8) = false := by decide
theorem test_wf_pop : Instr.wellFormed (.pop 8) = false := by decide
theorem test_wf_call : Instr.wellFormed (.call 8) = false := by decide
theorem test_wf_jmp : Instr.wellFormed (.jmp 8) = false := by decide
theorem test_wf_jeq : Instr.wellFormed (.jeq 8) = false := by decide
theorem test_wf_jne : Instr.wellFormed (.jne 8) = false := by decide

/-! ### Decode: every constructor's bytes, written out in binary from 30_encoding.md R74 and R76 -/

theorem test_decode_hlt : decode [0b00000001] = .ok (.hlt, []) := rfl
theorem test_decode_ldi : decode [0b10000010, 0b00000011, 0b11001000] = .ok (.ldi 3 200, []) := rfl
theorem test_decode_prn : decode [0b01000111, 0b00000011] = .ok (.prn 3, []) := rfl
theorem test_decode_mul : decode [0b10100010, 0b00000000, 0b00000001] = .ok (.mul 0 1, []) := rfl
theorem test_decode_add : decode [0b10100000, 0b00000000, 0b00000010] = .ok (.add 0 2, []) := rfl
theorem test_decode_cmp : decode [0b10100111, 0b00000000, 0b00000001] = .ok (.cmp 0 1, []) := rfl
theorem test_decode_push : decode [0b01000101, 0b00000010] = .ok (.push 2, []) := rfl
theorem test_decode_pop : decode [0b01000110, 0b00000010] = .ok (.pop 2, []) := rfl
theorem test_decode_call : decode [0b01010000, 0b00000001] = .ok (.call 1, []) := rfl
theorem test_decode_ret : decode [0b00010001] = .ok (.ret, []) := rfl
theorem test_decode_jmp : decode [0b01010100, 0b00000011] = .ok (.jmp 3, []) := rfl
theorem test_decode_jeq : decode [0b01010101, 0b00000010] = .ok (.jeq 2, []) := rfl
theorem test_decode_jne : decode [0b01010110, 0b00000011] = .ok (.jne 3, []) := rfl
/-- Rejections by name (R77, R82); an index byte above 7 still decodes (R75). -/
theorem test_decode_rejects : decode [] = .error .noOpcodeByte ∧ decode [0xC1] = .error (.unknownOpcode 0xC1) ∧
    decode [0xA0, 0x00] = .error (.missingOperand .add) ∧ decode [0x45, 0x08] = .ok (.push 8, []) := ⟨rfl, rfl, rfl, rfl⟩
/-- The host's numbering: the second byte is bits 15..8; operand bits left out are 0. -/
theorem test_decodeTableWord : decodeTableWord 24 0xC80382 = some (.ldi 3 200) ∧
    decodeTableWord 8 0x82 = some (.ldi 0 0) ∧ decodeTableWord 8 0x00 = none := by decide

/-! ### The step cycle -/

/-- DC1, DC3. -/
theorem test_unknown : (after (step (at_ 0 0 [0x00]))).map (·.run) = some (rec_ (.unknownInstruction 0x00) 0) ∧
    (after (step (at_ 0 0 [0xC1]))).map (·.run) = some (rec_ (.unknownInstruction 0xC1) 0) := by decide
/-- DC6, DC7. -/
theorem test_fetch_bounds : (after (step (at_ 254 254 [0xA0]))).map (·.run) = some (rec_ (.memoryOutOfBounds 256) 254) ∧
    (after (step (at_ 256 0 []))).map (·.run) = some (rec_ (.memoryOutOfBounds 256) 256) := by decide
/-- DC8. -/
theorem test_halted_stays : after (step (at_ 0 0 [0x47]).halt) = some (at_ 0 0 [0x47]).halt := by decide
/-- A word placed where the step fetches is the instruction the next step runs (R101). -/
theorem test_withFetchWord : (after (step (State.reset.withFetchWord 24 0x100782))).map (·.sp) = some 0x10 := by decide

/-! ### HLT, LDI, PRN -/

/-- H1, H2. -/
theorem test_hlt : (after (step (at_ 0 0 [0x01]))).map (fun t => (t.run, t.pc)) = some (.halted, 1) ∧
    (after (step (at_ 255 255 [0x01]))).map (fun t => (t.run, t.pc)) = some (.halted, 256) := by decide
/-- L2, L7. -/
theorem test_ldi : (after (step (at_ 0 0 [0x82, 0x07, 0x10]))).map (fun t => (t.sp, t.pc)) = some (0x10, 3) ∧
    (after (step (at_ 253 253 [0x82, 0x00, 0x05]))).map (fun t => (t.getReg 0, t.pc)) = some (5, 256) := by decide
/-- L4. -/
theorem test_ldi_fault : (after (step (at_ 0 0 [0x82, 0xFF, 0x01]))).map (fun t => (t.run, t.pc)) =
    some (rec_ (.registerOutOfBounds 255) 0, 0) := by decide
/-- PR2, PR4. -/
theorem test_prn : (after (step (reg (at_ 0 0 [0x47, 0x05]) 5 0xFF))).map (fun t => (t.out, t.pc)) = some ([255], 2) ∧
    (after (step (at_ 0 0 [0x47, 0x07]))).map (·.out) = some [244] := by decide

/-! ### The ALU -/

/-- M3, M5. -/
theorem test_mul : (after (exec (.mul 0 1) (reg (reg (at_ 0 0 []) 0 255) 1 255))).map (fun t => (t.getReg 0, t.pc)) = some (1, 3) ∧
    (after (exec (.mul 2 2) (reg (at_ 0 0 []) 2 15))).map (·.getReg 2) = some 225 := by decide
/-- M7: `a` is checked first. -/
theorem test_mul_fault : (after (exec (.mul 9 8) (at_ 0 0 []))).map (·.run) = some (rec_ (.registerOutOfBounds 9) 0) := by
  decide
/-- AD1, AD4. -/
theorem test_add : (after (exec (.add 0 1) (reg (reg (at_ 0 0 []) 0 200) 1 100))).map (fun t => (t.getReg 0, t.pc)) = some (44, 3) ∧
    (after (exec (.add 7 1) (reg (at_ 0 0 []) 1 0x10))).map (·.getReg 7) = some 0x04 := by decide
/-- CP4, CP5. -/
theorem test_cmp : (after (exec (.cmp 0 1) (reg (reg (at_ 0 0 []) 0 0) 1 255))).map (fun t => (t.fl, t.pc)) = some (0x04, 3) ∧
    (after (exec (.cmp 0 1) (reg (reg (at_ 0 0 []) 0 0x80) 1 0x7F))).map (·.fl) = some 0x02 := by decide
/-- CP7: the old FL is overwritten, not combined. -/
theorem test_cmp_overwrites : (after (exec (.cmp 0 1) { reg (reg (at_ 0 0 []) 0 4) 1 4 with fl := 0x04 })).map (·.fl) =
    some 0x01 := by decide

/-! ### The stack -/

/-- S2, S4. -/
theorem test_push : (after (exec (.push 7) (at_ 0 0 []))).map (fun t => (t.sp, t.readByte 0xF3)) = some (0xF3, 0xF3) ∧
    (after (exec (.push 0) (reg (reg (at_ 10 0 [0x11]) 7 1) 0 0x99))).map (fun t => (t.sp, t.readByte 0, t.pc)) =
      some (0, 0x99, 12) := by decide
/-- S3. -/
theorem test_push_fault : (after (exec (.push 0) (reg (at_ 0 0 []) 7 0))).map (fun t => (t.run, t.sp)) =
    some (rec_ (.memoryOutOfBounds (-1)) 0, 0) := by decide
/-- S8, S10. -/
theorem test_pop_sp : (after (exec (.pop 7) (reg (at_ 0 0xF3 [0x20]) 7 0xF3))).map (·.sp) = some 0x21 ∧
    (after (exec (.pop 7) (reg (at_ 0 0xFF [0x10]) 7 0xFF))).map (fun t => (t.sp, t.pc)) = some (0x11, 2) := by decide
/-- S5, S7. -/
theorem test_pop : (after (exec (.pop 1) (reg (at_ 0 0xF3 [1]) 7 0xF3))).map (fun t => (t.getReg 1, t.sp, t.readByte 0xF3)) =
      some (1, 0xF4, 1) ∧
    (after (exec (.pop 1) (reg (at_ 0 0 []) 7 0xFF))).map (·.run) = some (rec_ (.memoryOutOfBounds 256) 0) := by decide

/-! ### Control transfer -/

/-- T1, T2. -/
theorem test_call : (after (exec (.call 1) (reg (at_ 6 0 []) 1 11))).map (fun t => (t.sp, t.readByte 0xF3, t.pc)) =
      some (0xF3, 8, 11) ∧
    (after (exec (.call 7) (at_ 6 0 []))).map (fun t => (t.readByte 0xF3, t.pc)) = some (8, 0xF3) := by decide
/-- T4, T7. -/
theorem test_call_faults : (after (exec (.call 1) (at_ 254 0 []))).map (·.run) = some (rec_ (.memoryOutOfBounds 256) 254) ∧
    (after (exec (.call 1) (reg (at_ 254 0 []) 7 0))).map (·.run) = some (rec_ (.memoryOutOfBounds (-1)) 254) := by decide
/-- RT1, RT2. -/
theorem test_ret : (after (exec .ret (reg (at_ 14 0xF3 [8]) 7 0xF3))).map (fun t => (t.pc, t.sp)) = some (8, 0xF4) ∧
    (after (exec .ret (reg (at_ 0 0 []) 7 0xFF))).map (·.run) = some (rec_ (.memoryOutOfBounds 256) 0) := by decide
/-- J2, J3. -/
theorem test_jmp : (after (exec (.jmp 3) (reg (at_ 0 0 []) 3 255))).map (·.pc) = some 255 ∧
    (after (exec (.jmp 8) (at_ 0 0 []))).map (·.run) = some (rec_ (.registerOutOfBounds 8) 0) := by decide
/-- E1, E2. -/
theorem test_jeq : (after (exec (.jeq 2) { reg (at_ 20 0 []) 2 40 with fl := 0x01 })).map (·.pc) = some 40 ∧
    (after (exec (.jeq 2) { reg (at_ 20 0 []) 2 40 with fl := 0x02 })).map (·.pc) = some 22 := by decide
/-- E4: the index of a jump that is not taken is checked. -/
theorem test_jeq_fault : (after (exec (.jeq 9) (at_ 20 0 []))).map (·.run) = some (rec_ (.registerOutOfBounds 9) 20) := by
  decide
/-- N2, N3. -/
theorem test_jne : (after (exec (.jne 3) { reg (at_ 20 0 []) 3 12 with fl := 0x01 })).map (·.pc) = some 22 ∧
    (after (exec (.jne 3) { reg (at_ 20 0 []) 3 12 with fl := 0x04 })).map (·.pc) = some 12 := by decide

/-! ### The interface and the loader -/

/-- W7: the file `00000001` loads the one-byte image [0x01]. W8: `0b11` is an invalid literal. -/
theorem test_loader : parseImage ["00000001".toList] = .ok [0x01] ∧
    parseImage ["0b11".toList] = .error (.invalidLiteral "0b11".toList) := ⟨rfl, rfl⟩
/-- R218: comment and blank lines, a trailing comment, a line with nothing before its `#`, a value of 256. -/
theorem test_loader_lines : parseImage ["# x".toList, " ".toList, " 101 # five".toList] = .ok [5] ∧
    parseImage ["   # note".toList] = .error (.invalidLiteral []) ∧
    parseImage ["100000000".toList] = .error (.invalidLiteral "100000000".toList) := ⟨rfl, rfl, rfl⟩
/-- R216, R217: an image of 257 bytes is refused. -/
theorem test_load_too_long (image : List Byte) (h : image.length = 257) :
    Session.construct.load image = .refused .imageTooLong := by
  simp [Session.load, Session.construct, h]
/-- R197: 72 is rendered as its decimal digits and a line terminator, 0 as `0`. -/
theorem test_render : renderValue 72 = "72\n".toList ∧ renderValue 0 = "0\n".toList := by decide
/-- D24: bytes above address 255 are shown as absent. -/
theorem test_diagnose : (diagnose (at_ 254 254 [1, 2])).bytes = [some 1, some 2, none] := by decide

/-- R198: the pc, the bytes and the registers in two digits per byte; on the reset registers R7 is 0xF4. -/
theorem test_diagnosticPort : (diagnosticPort (at_ 254 254 [0x0A, 0xC8])).pc = "FE".toList ∧
    (diagnosticPort (at_ 254 254 [0x0A, 0xC8])).bytes = [some "0A".toList, some "C8".toList, none] ∧
    (diagnosticPort (at_ 254 254 [0x0A, 0xC8])).regs = List.replicate 7 "00".toList ++ ["F4".toList] := by decide

/-! ### Witnesses: the hypotheses of every statement are met -/

theorem witness_StepRunsDecodedInstruction :
    ((at_ 0 0 [0x82, 0, 8]).run = .running ∧ decode (at_ 0 0 [0x82, 0, 8]).codeBytes = .ok (.ldi 0 8, [])) ∧
    ((at_ 255 255 [0x01]).run = .running ∧ decode (at_ 255 255 [0x01]).codeBytes = .ok (.hlt, [])) :=
  ⟨⟨rfl, rfl⟩, ⟨rfl, rfl⟩⟩

theorem witness_UnknownOpcodeFaults : (at_ 255 255 [0xFF]).run = .running ∧ (at_ 255 255 [0xFF]).pc ≤ 255 ∧
    (at_ 255 255 [0xFF]).readByte 255 ∉
      ([0x01, 0x82, 0x47, 0xA2, 0xA0, 0xA7, 0x45, 0x46, 0x50, 0x11, 0x54, 0x55, 0x56] : List Byte) := by decide

theorem witness_FetchPastTheEndFaults :
    ((at_ 256 0 []).run = .running ∧ 256 ≤ (at_ 256 0 []).pc) ∧
    ((at_ 254 254 [0x82]).run = .running ∧ (at_ 254 254 [0x82]).pc ≤ 255 ∧
      (at_ 254 254 [0x82]).readByte 254 = opcodeOf .ldi ∧ 255 < 254 + Opcode.operandCount .ldi) ∧
    ((at_ 255 255 [0x45]).readByte 255 = opcodeOf .push ∧ 255 < 255 + Opcode.operandCount .push) := by decide

theorem witness_LatchesLiveWithinOneStep :
    (∃ u, fetch (at_ 253 253 [0xA0, 1, 2]) = .ok (.add 1 2, u)) ∧
    (at_ 253 253 [0xA0, 1, 2]).run = .running ∧ (∃ t, step (at_ 253 253 [0xA0, 1, 2]) = .next t) ∧
    (∃ t, exec (.add 1 2) (at_ 253 253 []) = .next t) :=
  ⟨⟨_, rfl⟩, rfl, ⟨_, rfl⟩, ⟨_, rfl⟩⟩

theorem witness_StepOutsideRunningChangesNothing :
    (at_ 0 0 []).halt.run ≠ .running ∧ ((at_ 0 0 []).raise .internalFault).run ≠ .running := by decide

theorem witness_StoppedMachineStaysStopped :
    (at_ 0 0 []).halt.run ≠ .running ∧ Steps (at_ 0 0 []).halt (at_ 0 0 []).halt :=
  ⟨by decide, .more rfl (.refl _)⟩

theorem witness_RunStateTransitions :
    (∃ t, step (at_ 255 255 [0x01]) = .next t ∧ t.run = .halted) ∧
    (∃ t, step (at_ 0 0 [0x45, 0x08]) = .next t ∧ t.run = .faulted ⟨.registerOutOfBounds 8, 0⟩) ∧
    (∃ t, step (at_ 256 0 []) = .next t ∧ t.run = .faulted ⟨.memoryOutOfBounds 256, 256⟩) ∧
    (∃ t, step (at_ 0 0 []).halt = .next t ∧ (at_ 0 0 []).halt.run ≠ .running) :=
  ⟨⟨_, rfl, rfl⟩, ⟨_, rfl, rfl⟩, ⟨_, rfl, rfl⟩, ⟨_, rfl, by decide⟩⟩

theorem witness_FaultingStepCommitsNothing :
    ∃ t, step (reg (at_ 0 0 [0x45, 0x00]) 7 0) = .next t ∧ (reg (at_ 0 0 [0x45, 0x00]) 7 0).run = .running ∧
      t.run = .faulted ⟨.memoryOutOfBounds (-1), 0⟩ := ⟨_, rfl, rfl, rfl⟩

theorem witness_FaultInfoIsAsTabled :
    (∃ t, step (at_ 256 0 []) = .next t ∧ (at_ 256 0 []).run = .running ∧ (at_ 256 0 []).pc ≤ 256 ∧
      t.run = .faulted ⟨.memoryOutOfBounds 256, 256⟩) ∧
    (∃ t, step (at_ 254 254 [0x50, 1]) = .next t ∧ t.run = .faulted ⟨.memoryOutOfBounds 256, 254⟩) ∧
    (∃ t, step (at_ 0 0 [0x02]) = .next t ∧ t.run = .faulted ⟨.unknownInstruction 2, 0⟩) :=
  ⟨⟨_, rfl, rfl, by decide, rfl⟩, ⟨_, rfl, rfl⟩, ⟨_, rfl, rfl⟩⟩

theorem witness_InternalFaultIsUnreachable : ((7 : Byte).toNat < 8 ∧ (0 : Byte).toNat < 8) ∧
    ∃ t, step (at_ 0 0 [0xA7, 0, 8]) = .next t ∧ (at_ 0 0 [0xA7, 0, 8]).run = .running ∧
      t.run = .faulted ⟨.registerOutOfBounds 8, 0⟩ := ⟨by decide, _, rfl, rfl, rfl⟩

theorem witness_FirstBadIndexFaults : firstBadIndex (.mul 9 8) = some 9 ∧ firstBadIndex (.mul 7 8) = some 8 ∧
    firstBadIndex (.jeq 255) = some 255 ∧ Instr.wellFormed (.push 7) = true ∧
    (∃ t, exec (.push 7) (reg (at_ 0 0 []) 7 0) = .next t ∧ (reg (at_ 0 0 []) 7 0).run = .running ∧
      t.run = .faulted ⟨.memoryOutOfBounds (-1), 0⟩) :=
  ⟨by decide, by decide, by decide, by decide, _, rfl, rfl, rfl⟩

/-! The statements about register operands hold for every state: their hypotheses are on the operand bytes alone. Index 7
is the last that names a register, index 8 the first that does not. -/

theorem witness_LdiLoadsImmediate : (7 : Byte).toNat = (7 : Fin 8).val ∧ (0 : Byte).toNat = (0 : Fin 8).val ∧ 8 ≤ (8 : Byte).toNat ∧ 8 ≤ (255 : Byte).toNat := by
  decide

theorem witness_PrnEmitsRegister : (7 : Byte).toNat = (7 : Fin 8).val ∧ (0 : Byte).toNat = (0 : Fin 8).val ∧ 8 ≤ (8 : Byte).toNat ∧ 8 ≤ (255 : Byte).toNat := by
  decide

theorem witness_JmpSetsThePc : (7 : Byte).toNat = (7 : Fin 8).val ∧ (0 : Byte).toNat = (0 : Fin 8).val ∧ 8 ≤ (8 : Byte).toNat ∧ 8 ≤ (255 : Byte).toNat := by
  decide

theorem witness_MulMultipliesModulo256 : ((7 : Byte).toNat = (7 : Fin 8).val ∧ (0 : Byte).toNat = (0 : Fin 8).val) ∧
    8 ≤ (8 : Byte).toNat ∧ ((7 : Byte).toNat < 8 ∧ 8 ≤ (8 : Byte).toNat) := by decide

theorem witness_AddAddsModulo256 : ((7 : Byte).toNat = (7 : Fin 8).val ∧ (0 : Byte).toNat = (0 : Fin 8).val) ∧
    8 ≤ (8 : Byte).toNat ∧ ((7 : Byte).toNat < 8 ∧ 8 ≤ (8 : Byte).toNat) := by decide

theorem witness_CmpSetsFlags : ((7 : Byte).toNat = (7 : Fin 8).val ∧ (0 : Byte).toNat = (0 : Fin 8).val) ∧
    8 ≤ (8 : Byte).toNat ∧ ((7 : Byte).toNat < 8 ∧ 8 ≤ (8 : Byte).toNat) := by decide

theorem witness_ArithmeticKeepsLowEightBits : (7 : Byte).toNat = (7 : Fin 8).val ∧ (0 : Byte).toNat = (0 : Fin 8).val := by decide

theorem witness_CompareIsUnsigned : (7 : Byte).toNat = (7 : Fin 8).val ∧ (0 : Byte).toNat = (0 : Fin 8).val := by decide

theorem witness_LdiThenPrnEmitsTheValue : (7 : Byte).toNat < 8 ∧ (0 : Byte).toNat < 8 := by decide

theorem witness_HltHalts : (at_ 0 0 []).halt.run = .halted := by decide

theorem witness_OnlyCmpWritesFlags :
    (∃ t, exec (.add 0 7) (at_ 0 0 []) = .next t ∧ Instr.opcode (.add 0 7) ≠ .cmp) ∧
    ((7 : Byte).toNat < 8 ∧ (0 : Byte).toNat < 8) := ⟨⟨_, rfl, by decide⟩, by decide⟩

theorem witness_OnlyEqualIsRead :
    (∃ t, exec (.cmp 0 7) (at_ 0 0 []) = .next t ∧ Instr.opcode (.cmp 0 7) ≠ .jeq ∧ Instr.opcode (.cmp 0 7) ≠ .jne) ∧
    (∃ t, exec (.jeq 0) { at_ 0 0 [] with fl := 0x02 } = .next t ∧ flagE 0x04 = flagE 0x02) :=
  ⟨⟨_, rfl, by decide, by decide⟩, ⟨_, rfl, by decide⟩⟩

/-- SP at both ends of the range a push allows, and at the end it does not. -/
theorem witness_PushStoresAtNewTop : (7 : Byte).toNat = (7 : Fin 8).val ∧ (reg (at_ 0 0 []) 7 1).sp.toNat ≠ 0 ∧
    (reg (at_ 0 0 []) 7 255).sp.toNat ≠ 0 ∧ (at_ 0 0 [1]).mem.wf = true ∧ (7 : Byte).toNat < 8 ∧
    (reg (at_ 0 0 []) 7 0).sp.toNat = 0 ∧ 8 ≤ (8 : Byte).toNat := by decide

theorem witness_PopLoadsFromTop :
    ((6 : Byte).toNat = (6 : Fin 8).val ∧ (6 : Fin 8) ≠ 7 ∧ (reg (at_ 0 0 []) 7 254).sp.toNat < 255) ∧
    ((7 : Byte).toNat = 7 ∧ ((at_ 0 0xF4 [254]).readByte (at_ 0 0xF4 [254]).sp.toNat).toNat < 255) ∧
    8 ≤ (8 : Byte).toNat ∧ ((6 : Byte).toNat < 7 ∧ (reg (at_ 0 0 []) 7 255).sp.toNat = 255) ∧
    ((at_ 0 0xF4 [255]).readByte (at_ 0 0xF4 [255]).sp.toNat).toNat = 255 := by decide

theorem witness_PushPopRoundTrip : (at_ 0 0 [1]).mem.wf = true ∧ (7 : Byte).toNat < 8 ∧
    (reg (at_ 0 0 [1]) 7 1).sp.toNat ≠ 0 ∧ (reg (at_ 0 0 [1]) 7 255).sp.toNat ≠ 0 := by decide

theorem witness_CallPushesReturnAddress :
    ((7 : Byte).toNat = (7 : Fin 8).val ∧ (reg (at_ 253 0 []) 7 1).sp.toNat ≠ 0 ∧ (at_ 253 0 []).pc ≤ 253 ∧
      (at_ 253 0 []).mem.wf = true) ∧
    8 ≤ (8 : Byte).toNat ∧ ((7 : Byte).toNat < 8 ∧ (reg (at_ 0 0 []) 7 0).sp.toNat = 0) ∧
    ((reg (at_ 254 0 []) 7 1).sp.toNat ≠ 0 ∧ (at_ 254 0 []).pc = 254) := by decide

theorem witness_RetPopsThePc :
    (reg (at_ 0 0 []) 7 254).sp.toNat < 255 ∧ (reg (at_ 0 0 []) 7 255).sp.toNat = 255 := by decide

theorem witness_CallRetRoundTrip : (at_ 253 0 [1]).mem.wf = true ∧ (7 : Byte).toNat < 8 ∧
    (reg (at_ 253 0 [1]) 7 1).sp.toNat ≠ 0 ∧ (at_ 253 0 [1]).pc ≤ 253 := by decide

theorem witness_JeqJumpsWhenEqual : (7 : Byte).toNat = (7 : Fin 8).val ∧ (7 : Byte).toNat < 8 ∧ 8 ≤ (8 : Byte).toNat ∧
    (0x01 : Byte).getLsbD 0 = true ∧ (0x02 : Byte).getLsbD 0 = false ∧ (0x00 : Byte).getLsbD 0 = false := by decide

theorem witness_JneJumpsWhenNotEqual : (7 : Byte).toNat = (7 : Fin 8).val ∧ (7 : Byte).toNat < 8 ∧ 8 ≤ (8 : Byte).toNat ∧
    (0x01 : Byte).getLsbD 0 = true ∧ (0x02 : Byte).getLsbD 0 = false ∧ (0x00 : Byte).getLsbD 0 = false := by decide

theorem witness_PcAdvancesAsTabled : ∃ t, exec (.call 7) (at_ 253 0 []) = .next t ∧ (at_ 253 0 []).run = .running ∧
    ∀ f, t.run ≠ .faulted f := ⟨_, rfl, rfl, fun f h => by cases h⟩

theorem witness_OnlyPushAndCallStore :
    (∃ t, exec (.pop 0) (at_ 0 0xF4 [9]) = .next t ∧ Instr.opcode (.pop 0) ≠ .push ∧ Instr.opcode (.pop 0) ≠ .call ∧
      Memory.get (at_ 0 0xF4 [9]).sp.toNat [(0, 1), (0xF4, 9)] = (at_ 0 0xF4 [9]).readByte (at_ 0 0xF4 [9]).sp.toNat) ∧
    (∃ t, exec (.push 7) (reg (at_ 0 0 []) 7 1) = .next t ∧ Instr.opcode (.push 7) = .push) ∧
    (∃ t, exec (.call 7) (at_ 253 0 []) = .next t ∧ Instr.opcode (.call 7) = .call) :=
  ⟨⟨_, rfl, by decide, by decide, by decide⟩, ⟨_, rfl, rfl⟩, ⟨_, rfl, rfl⟩⟩

theorem witness_StoreGoesToTheNewTop :
    (∃ t u, exec (.push 0) (reg (at_ 0 0 []) 7 1) = .next t ∧ decSp (reg (at_ 0 0 []) 7 1) = .ok u ∧
      (0xFF : Nat) ≠ u.sp.toNat) ∧
    (∃ t f, exec (.call 0) (reg (at_ 0 0 []) 7 0) = .next t ∧ decSp (reg (at_ 0 0 []) 7 0) = .error f) :=
  ⟨⟨_, _, rfl, rfl, by decide⟩, ⟨_, _, rfl, rfl⟩⟩

theorem witness_RegistersOutsideTheTableKeepTheirValue :
    ∃ t, exec (.pop 6) (at_ 0 0 []) = .next t ∧ ∀ b ∈ writtenRegs (.pop 6), b.toNat ≠ (0 : Fin 8).val :=
  ⟨_, rfl, by decide⟩

theorem witness_OnlyPrnAppendsToTheOutput :
    (∃ t, exec .hlt (at_ 0 0 []) = .next t ∧ Instr.opcode .hlt ≠ .prn) ∧ (7 : Byte).toNat = (7 : Fin 8).val :=
  ⟨⟨_, rfl, by decide⟩, by decide⟩

theorem witness_MemoryPrimitivesCheckTheirRange : ((-1 : Int) < 0 ∨ 255 < (-1 : Int)) ∧ ((256 : Int) < 0 ∨ 255 < (256 : Int)) ∧
    (255 : Nat) ≤ 255 ∧ (0 : Nat) ≤ 255 ∧ (at_ 0 255 [1]).mem.wf = true := by decide

theorem witness_CanonicalMemoryIsUnique : Memory.wf [(0, 1), (255, 2)] = true ∧
    Memory.wf (Memory.put 0 1 [(255, 2)]) = true ∧
    ∀ a, a < 256 → Memory.get a [(0, 1), (255, 2)] = Memory.get a (Memory.put 0 1 [(255, 2)]) :=
  ⟨by decide, by decide, fun _ _ => rfl⟩

theorem witness_StoredByteIsFetched :
    (∃ t, exec (.push 0) (reg (reg (at_ 0 0 []) 7 1) 0 0x01) = .next t ∧ t.run = .running ∧
      (reg (reg (at_ 0 0 []) 7 1) 0 0x01).mem.wf = true ∧ decodeOpcode (t.readByte t.sp.toNat) = some .hlt ∧
      t.sp.toNat + Opcode.operandCount .hlt ≤ 255) ∧
    (∃ t, exec (.call 0) (at_ 0 0 []) = .next t ∧ t.run = .running ∧ decodeOpcode (t.readByte t.sp.toNat) = none) :=
  ⟨⟨_, rfl, rfl, rfl, rfl, by decide⟩, ⟨_, rfl, rfl, rfl⟩⟩

theorem witness_StepKeepsInvariant : State.Inv (at_ 256 0 [1]) ∧ ∃ t, step (at_ 256 0 [1]) = .next t :=
  ⟨by unfold State.Inv; decide, _, rfl⟩

theorem witness_LoadPlacesTheImage : ([] : List Byte).length ≤ 256 ∧ ([0x01] : List Byte).length ≤ 256 := by decide

theorem witness_EveryRunOfALoadedMachineMeetsInvariant :
    ∃ h, Session.construct.load [0x01] = .next h ∧ ∃ t, Steps h.machine t ∧ t.run = .halted :=
  ⟨_, rfl, _, .more rfl (.refl _), rfl⟩

theorem witness_LoadIsAcceptedOnce :
    (∃ k, Session.construct.load [0x01] = .next k) ∧ (∃ k r, Session.construct.step = .next (k, r)) :=
  ⟨⟨_, rfl⟩, ⟨_, _, rfl⟩⟩

theorem witness_RunEndsOnlyHaltedOrFaulted : ∃ t r, runSteps 1 (at_ 0 0 [0x01]) = some (t, r) := ⟨_, _, rfl⟩

theorem witness_BinaryTextLoadsAsItsBytes : ([] : List Byte).length ≤ 256 ∧
    (List.replicate 256 (0 : Byte)).length = 256 := ⟨by decide, List.length_replicate⟩

/-- A pc at both ends of each clause's range, and the first and last byte index. -/
theorem witness_DiagnosticPortRendersTwoDigitsPerByte : (at_ 255 0 []).pc ≤ 255 ∧ (at_ 256 0 []).pc = 256 ∧
    255 < (at_ 255 0 []).pc + 1 ∧ 255 < (at_ 256 0 []).pc + 0 ∧ (at_ 255 0 []).pc + 0 ≤ 255 ∧ (at_ 253 0 []).pc + 2 ≤ 255 := by
  decide

theorem witness_OperandCountStandsInHighBits : countField 0xC1 = 3 ∧ countField 0xFF = 3 := by decide

theorem witness_DecodeAndEncodeAgree : decode [0x45, 0xFF, 0x01] = .ok (.push 0xFF, [0x01]) ∧
    ([0x45, 0xFF, 0x01] : List Byte) = encode (.push 0xFF) ++ [0x01] := ⟨rfl, by decide⟩

end Sys2Proof.Tests
end

section
/-! The run state an execution leaves, the inversion of a step that faults, and the settling of O12. -/

namespace Sys2Proof.Machine

@[simp] theorem State.pushed_run (s : State) (v : Byte) : (s.pushed v).run = s.run := rfl

/-- Raising a fault after the latches are set and clearing them is raising it in the state the step started from. -/
@[simp] theorem State.clearLatches_raise_latched (s : State) (i : Instr) (k : Fault) :
    ((s.latched i).raise k).clearLatches = (s.raise k).clearLatches := rfl

/-- An instruction that completes enters Halted when it is HLT and keeps the run state otherwise (10_state.md R39). -/
theorem Effect.run_eq {i : Instr} {s t : State} (h : Effect i s t) :
    t.run = if i = .hlt then .halted else s.run := by
  cases i with
  | hlt => obtain rfl := h; simp
  | ldi | prn | jmp => obtain ⟨r, -, rfl⟩ := h; simp
  | mul | add | cmp => obtain ⟨ra, rb, -, -, rfl⟩ := h; simp
  | push | pop => obtain ⟨r, -, -, rfl⟩ := h; simp
  | call => obtain ⟨r, -, -, -, rfl⟩ := h; simp
  | ret => obtain ⟨-, rfl⟩ := h; simp
  | jeq | jne => obtain ⟨r, -, rfl⟩ := h; cases flagE s.fl <;> simp

/-- No instruction that completes enters Faulted: only taking a fault does. -/
theorem Effect.run_ne_faulted {i : Instr} {s t : State} (hs : s.run = .running) (h : Effect i s t)
    (f : FaultRecord) : t.run ≠ .faulted f := by
  rw [h.run_eq, hs]
  split <;> simp

/-- An execution from Running that ends in Faulted is a fault of the instruction's rule, taken in the state it started
from. -/
theorem exec_faulted_inv {i : Instr} {s t : State} {f : FaultRecord} (hs : s.run = .running)
    (h : exec i s = .next t) (hf : t.run = .faulted f) :
    f.pc = s.pc ∧ t = s.raise f.kind ∧ Raises i s f.kind := by
  rcases exec_inv h with he | ⟨k, rfl, hk⟩
  · exact absurd hf (he.run_ne_faulted hs f)
  · rw [State.raise_run, RunState.faulted.injEq] at hf
    subst hf
    exact ⟨rfl, rfl, hk⟩

/-- Everything a step from Running that ends in Faulted can be: a fault of the fetch, or of the fetched instruction's
rule, taken in the state the step started from. -/
theorem step_faulted_inv {s t : State} {f : FaultRecord} (hs : s.run = .running) (h : step s = .next t)
    (hf : t.run = .faulted f) :
    f.pc = s.pc ∧ t = (s.raise f.kind).clearLatches ∧
      (fetch s = .error f.kind ∨
        ∃ i, fetch s = .ok (i, s.latched i) ∧ exec i (s.latched i) = .next ((s.latched i).raise f.kind) ∧
          Raises i (s.latched i) f.kind) := by
  rcases step_cases s with ⟨hn, -⟩ | ⟨-, k, hfetch, e⟩ | ⟨-, i, hfetch, -, u, hu, e⟩
  · exact absurd hs hn
  · rw [e] at h
    cases h
    rw [State.clearLatches_run, State.raise_run, RunState.faulted.injEq] at hf
    subst hf
    exact ⟨rfl, rfl, .inl hfetch⟩
  · rw [e] at h
    cases h
    obtain ⟨hpc, rfl, hk⟩ := exec_faulted_inv (s := s.latched i) hs hu hf
    exact ⟨hpc, s.clearLatches_raise_latched i f.kind, .inr ⟨i, hfetch, hu, hk⟩⟩

/-- Settles O12: whether the fetch or the instruction's rule faults, the fault is taken in the state the step started from,
at its pc. -/
theorem faultingStepCommitsNothing : Obligations.FaultingStepCommitsNothing := by
  intro s t f hs h hf
  obtain ⟨hpc, rfl, -⟩ := step_faulted_inv hs h hf
  refine ⟨hpc, ?_⟩
  obtain ⟨k, pc⟩ := f
  obtain rfl : pc = s.pc := hpc
  rfl

end Sys2Proof.Machine
end

section
/-! Frames: what an instruction leaves unchanged, said once for all instructions, and the statements of R23, R32
and R43 that read it off. -/

namespace Sys2Proof.Machine

@[simp] theorem State.pushed_fl (s : State) (v : Byte) : (s.pushed v).fl = s.fl := rfl

@[simp] theorem State.pushed_out (s : State) (v : Byte) : (s.pushed v).out = s.out := rfl

@[simp] theorem State.pushed_mem (s : State) (v : Byte) : (s.pushed v).mem = s.mem.put (s.sp.toNat - 1) v := rfl

/-- A push moves SP and writes no other register. -/
theorem State.getReg_pushed_other (s : State) (v : Byte) {r : Fin 8} (h : 7 ≠ r) :
    (s.pushed v).getReg r = s.getReg r :=
  s.getReg_setReg_other _ h

/-- What an execution of `i` from `s` that answered `t` leaves unchanged: FL but for CMP (10_state.md R32), the output
history but for PRN (R43), memory but for PUSH and CALL (20_memory.md R55). -/
structure Frame (i : Instr) (s t : State) : Prop where
  fl : i.opcode ≠ .cmp → t.fl = s.fl
  out : i.opcode ≠ .prn → t.out = s.out
  mem : i.opcode ≠ .push → i.opcode ≠ .call → t.mem = s.mem

/-- Taking a fault writes nothing but the run state. -/
theorem frame_raise (i : Instr) (s : State) (f : Fault) : Frame i s (s.raise f) :=
  ⟨fun _ => rfl, fun _ => rfl, fun _ _ => rfl⟩

/-- A register whose index is not the byte `a` is not the register that `a` names. -/
theorem ne_of_toNat_ne {a : Byte} {q r : Fin 8} (ha : a.toNat = q.val) (h : a.toNat ≠ r.val) : q ≠ r :=
  fun e => h (e ▸ ha)

/-- The register frame of an instruction that completes: its writes are to its destination and, for the stack four, to
SP. -/
theorem Effect.getReg_eq {i : Instr} {s t : State} (h : Effect i s t) (r : Fin 8)
    (hr : ∀ b ∈ writtenRegs i, b.toNat ≠ r.val) : t.getReg r = s.getReg r := by
  cases i with
  | hlt => obtain rfl := h; rfl
  | prn | jmp => obtain ⟨q, -, rfl⟩ := h; rfl
  | cmp => obtain ⟨qa, qb, -, -, rfl⟩ := h; rfl
  | jeq | jne => obtain ⟨q, -, rfl⟩ := h; cases flagE s.fl <;> rfl
  | ldi a =>
    obtain ⟨q, ha, rfl⟩ := h
    exact s.getReg_setReg_other _ (ne_of_toNat_ne ha (hr a (by simp [writtenRegs])))
  | mul a | add a =>
    obtain ⟨qa, qb, ha, -, rfl⟩ := h
    exact s.getReg_setReg_other _ (ne_of_toNat_ne ha (hr a (by simp [writtenRegs])))
  | push =>
    obtain ⟨q, -, -, rfl⟩ := h
    have h7 : 7 ≠ r := ne_of_toNat_ne (a := 7) rfl (hr 7 (by simp [writtenRegs]))
    rw [State.getReg_advance, s.getReg_pushed_other _ h7]
  | call =>
    obtain ⟨q, -, -, -, rfl⟩ := h
    have h7 : 7 ≠ r := ne_of_toNat_ne (a := 7) rfl (hr 7 (by simp [writtenRegs]))
    rw [State.getReg_jumpTo, s.getReg_pushed_other _ h7]
  | pop a =>
    obtain ⟨q, ha, -, rfl⟩ := h
    have hq : q ≠ r := ne_of_toNat_ne ha (hr a (by simp [writtenRegs]))
    have h7 : 7 ≠ r := ne_of_toNat_ne (a := 7) rfl (hr 7 (by simp [writtenRegs]))
    rw [State.getReg_advance, State.getReg_setReg_other _ _ h7, s.getReg_setReg_other _ hq]
  | ret =>
    obtain ⟨-, rfl⟩ := h
    exact s.getReg_setReg_other _ (ne_of_toNat_ne (a := 7) rfl (hr 7 (by simp [writtenRegs])))

theorem Effect.frame {i : Instr} {s t : State} (h : Effect i s t) : Frame i s t := by
  cases i with
  | hlt => obtain rfl := h; constructor <;> simp
  | ldi | prn | jmp => obtain ⟨q, -, rfl⟩ := h; constructor <;> simp [Instr.opcode]
  | mul | add | cmp => obtain ⟨qa, qb, -, -, rfl⟩ := h; constructor <;> simp [Instr.opcode]
  | push | pop => obtain ⟨q, -, -, rfl⟩ := h; constructor <;> simp [Instr.opcode]
  | call => obtain ⟨q, -, -, -, rfl⟩ := h; constructor <;> simp [Instr.opcode]
  | ret => obtain ⟨-, rfl⟩ := h; constructor <;> simp
  | jeq | jne => obtain ⟨q, -, rfl⟩ := h; cases flagE s.fl <;> constructor <;> simp

/-- Whether it completes or faults, an execution keeps its frame. -/
theorem exec_frame {i : Instr} {s t : State} (h : exec i s = .next t) : Frame i s t := by
  obtain he | ⟨f, rfl, -⟩ := exec_inv h
  · exact he.frame
  · exact frame_raise i s f

/-- CMP of two registers writes FL, by the order of their unsigned values, and moves on; it reads nothing of FL. -/
theorem exec_cmp_of_lt {a b : Byte} (ha : a.toNat < 8) (hb : b.toNat < 8) (s : State) :
    exec (.cmp a b) s = .next { s with
      fl := compareFlags (s.getReg ⟨a.toNat, ha⟩) (s.getReg ⟨b.toNat, hb⟩), pc := s.pc + 3 } := by
  have hab : chkregs a b = .ok (⟨a.toNat, ha⟩, ⟨b.toNat, hb⟩) := chkregs_of_eq rfl rfl
  simp only [exec, execCmp, aluRule, hab, alu, bind, Except.bind, pure, Except.pure, State.commit_ok]
  rfl

/-- Settles O25: FL is in the frame of every instruction but CMP, and CMP's next state does not mention the old FL. -/
theorem onlyCmpWritesFlags : Obligations.OnlyCmpWritesFlags := by
  refine ⟨fun i s t h hi => (exec_frame h).fl hi, fun s a b ha hb => ⟨_, exec_cmp_of_lt ha hb s, ?_, fun fl => ?_⟩⟩
  · obtain ⟨-, e⟩ | ⟨-, e⟩ | ⟨-, e⟩ := compareFlags_cases (s.getReg ⟨a.toNat, ha⟩) (s.getReg ⟨b.toNat, hb⟩) <;> simp [e]
  · exact exec_cmp_of_lt ha hb { s with fl := fl }

/-- Settles O39: a fault is taken with every register kept, and an effect writes only the registers of R23's column. -/
theorem registersOutsideTheTableKeepTheirValue : Obligations.RegistersOutsideTheTableKeepTheirValue := by
  intro i s t r h hr
  obtain he | ⟨f, rfl, -⟩ := exec_inv h
  · exact he.getReg_eq r hr
  · rfl

/-- PRN of a register appends its value. -/
theorem exec_prn_of_eq {a : Byte} {r : Fin 8} (ha : a.toNat = r.val) (s : State) :
    exec (.prn a) s = .next ((s.emit (s.getReg r)).advance 1) := by
  simp only [exec, execPrn, chkreg_of_eq ha, bind, Except.bind, pure, Except.pure, State.commit_ok]

/-- Settles O40: the output history is in the frame of every instruction but PRN. -/
theorem onlyPrnAppendsToTheOutput : Obligations.OnlyPrnAppendsToTheOutput :=
  ⟨rfl, fun s _ _ ha => ⟨_, exec_prn_of_eq ha s, rfl⟩, fun _ _ _ h hi => (exec_frame h).out hi⟩

end Sys2Proof.Machine
end
section
/-! The pc of an instruction that completes, and the statement of R29's table. -/

namespace Sys2Proof.Machine

/-- Settles O36: a fault is excluded by hypothesis, and the effect of each instruction sets the pc as R29 tables; the target
of a CALL is the register read after the push. -/
theorem pcAdvancesAsTabled : Obligations.PcAdvancesAsTabled := by
  intro i s t hs h hf
  obtain he | ⟨f, rfl, -⟩ := exec_inv h
  swap
  · exact absurd (s.raise_run f) (hf _)
  cases i with
  | hlt => obtain rfl := he; rfl
  | ldi | prn => obtain ⟨r, -, rfl⟩ := he; rfl
  | mul | add | cmp => obtain ⟨ra, rb, -, -, rfl⟩ := he; rfl
  | push | pop => obtain ⟨r, -, -, rfl⟩ := he; rfl
  | call => obtain ⟨r, ha, -, -, rfl⟩ := he; exact ⟨r, ha, rfl⟩
  | ret => obtain ⟨-, rfl⟩ := he; rfl
  | jmp => obtain ⟨r, ha, rfl⟩ := he; exact ⟨r, ha, rfl⟩
  | jeq | jne => obtain ⟨r, ha, rfl⟩ := he; exact ⟨r, ha, apply_ite State.pc _ _ _⟩

/-- An instruction all of whose bytes lie in memory moves the pc to 256 at most. -/
theorem exec_pc_le {i : Instr} {s t : State} (hs : s.run = .running) (h : exec i s = .next t)
    (hf : ∀ f, t.run ≠ .faulted f) (hn : s.pc + i.opcode.operandCount < 256) : t.pc ≤ 256 := by
  have byte_le : ∀ v : Byte, v.toNat ≤ 256 := fun v => v.isLt.le
  have hpc := pcAdvancesAsTabled i s t hs h hf
  cases i with
  | hlt | ldi | prn | mul | add | cmp | push | pop => simp only [Instr.opcode, Opcode.operandCount] at hn; omega
  | ret => exact hpc ▸ byte_le _
  | call | jmp => obtain ⟨r, -, hpc⟩ := hpc; exact hpc ▸ byte_le _
  | jeq | jne =>
    obtain ⟨r, -, hpc⟩ := hpc
    have := byte_le (s.getReg r)
    simp only [Instr.opcode, Opcode.operandCount] at hn
    split at hpc <;> omega

end Sys2Proof.Machine
end

section
/-! The invariant: what an execution and a taken fault do to each of its parts, its step, and its induction over runs. -/

namespace Sys2Proof.Machine

/-- Only the two instructions that store touch memory, and they store to a cell that exists. -/
theorem Effect.mem_wf {i : Instr} {s t : State} (h : Effect i s t) (hw : s.mem.wf = true) : t.mem.wf = true := by
  have hsp := s.sp.isLt
  cases i with
  | push => obtain ⟨r, -, -, rfl⟩ := h; exact Memory.wf_put hw (by omega) _
  | call => obtain ⟨r, -, -, -, rfl⟩ := h; exact Memory.wf_put hw (by omega) _
  | _ => rwa [h.frame.mem (by simp [Instr.opcode]) (by simp [Instr.opcode])]

/-- FL stays legal: CMP writes a legal value, and no other instruction writes FL. -/
theorem Effect.legalFlags {i : Instr} {s t : State} (h : Effect i s t) (hl : legalFlags s.fl = true) :
    legalFlags t.fl = true := by
  cases i with
  | cmp => obtain ⟨ra, rb, -, -, rfl⟩ := h; exact legalFlags_compareFlags _ _
  | _ => rwa [h.frame.fl (by simp [Instr.opcode])]

/-- The faults of an instruction's rule are legal when a fetch found all its bytes in memory: a CALL's return address is
then at most 256. -/
theorem Raises.legal {i : Instr} {s : State} {f : Fault} (h : Raises i s f)
    (hn : s.pc + i.opcode.operandCount < 256) : legalFault f = true := by
  obtain ⟨b, hb, rfl⟩ | ⟨rfl, -⟩ | rfl | ⟨hpc, hi, rfl⟩ := h
  · have := firstBadIndex_ge hb
    simp [legalFault, validIndex, this]
  · rfl
  · rfl
  · rw [hi, Opcode.operandCount] at hn
    have h254 : s.pc = 254 := by omega
    rw [h254]
    rfl

/-- A state that has not faulted has no record that could be illegal. -/
theorem State.Safe.legalRun {s : State} (h : s.Safe) : legalRun s = true := by
  unfold Machine.legalRun
  split
  · rfl
  · rfl
  · next f hr => exact absurd hr (h f)

theorem State.Inv.pc_le {s : State} (h : s.Inv) : s.pc ≤ 256 := by
  obtain ⟨-, hpc, -⟩ := h
  exact hpc

/-- Taking a legal fault at the end of a step keeps the invariant. -/
theorem State.Inv.raise {s : State} (h : s.Inv) {f : Fault} (hf : legalFault f = true) :
    (s.raise f).clearLatches.Inv := by
  obtain ⟨hmem, hpc, hfl, -, -⟩ := h
  exact ⟨hmem, hpc, hfl, by simp [legalRun, hf], rfl, rfl, rfl⟩

/-- Executing the fetched instruction without a fault keeps the invariant. -/
theorem State.Inv.exec_effect {s t : State} {i : Instr} (h : s.Inv) (hs : s.run = .running)
    (hn : s.pc + i.opcode.operandCount < 256) (hx : exec i (s.latched i) = .next t) (he : Effect i (s.latched i) t) :
    t.clearLatches.Inv := by
  obtain ⟨hmem, -, hfl, -, -⟩ := h
  have hf : t.Safe := he.run_ne_faulted (s := s.latched i) hs
  have hpc : t.pc ≤ 256 := exec_pc_le (s := s.latched i) hs hx hf hn
  exact ⟨he.mem_wf hmem, hpc, he.legalFlags hfl, hf.legalRun, rfl, rfl, rfl⟩

/-- Settles O44: by the cases of a step. A stopped machine keeps its state; a fault of the fetch or of the instruction's rule
is legal and is taken in the state the step started from; an instruction that completes keeps each part. -/
theorem stepKeepsInvariant : Obligations.StepKeepsInvariant := by
  intro s t hinv h
  obtain ⟨-, e⟩ | ⟨-, f, hfetch, e⟩ | ⟨hs, i, -, hn, u, hx, e⟩ := step_cases s <;> rw [e] at h <;> cases h
  · exact hinv
  · exact hinv.raise (fetch_error_legal hinv.pc_le hfetch)
  · obtain he | ⟨f, rfl, hf⟩ := exec_inv hx
    · exact hinv.exec_effect hs hn hx he
    · rw [State.clearLatches_raise_latched]
      exact hinv.raise (hf.legal hn)

/-- Settles O45: each part of the invariant at the reset values. -/
theorem resetMeetsInvariant : Obligations.ResetMeetsInvariant :=
  ⟨State.reset_mem_wf, by decide, by decide, rfl, rfl, rfl, rfl⟩

/-- What holds of a state and is kept by every step holds of every state that steps reach from it. -/
theorem Steps.preserves {P : State → Prop} (hstep : ∀ s t, P s → step s = .next t → P t) {s t : State}
    (hsteps : Steps s t) (hs : P s) : P t := by
  induction hsteps with
  | refl => exact hs
  | more h _ ih => exact ih (hstep _ _ hs h)

/-- Loading an image writes memory alone, and keeps its canonical form. -/
theorem State.Inv.load {s : State} (h : s.Inv) (image : List Byte) : (s.load image).Inv := by
  obtain ⟨hmem, hrest⟩ := h
  exact ⟨State.load_keeps_wf hmem image, hrest⟩

/-- A load that the session accepts is the machine's load. -/
theorem Session.load_inv {h k : Session} {image : List Byte} (e : h.load image = .next k) :
    k.machine = h.machine.load image := by
  unfold Session.load at e
  split_ifs at e
  cases e
  rfl

/-- Settles O46: the invariant holds at reset, a load keeps it, and so does every step of the run. -/
theorem everyRunOfALoadedMachineMeetsInvariant : Obligations.EveryRunOfALoadedMachineMeetsInvariant := by
  intro image h t hload hsteps
  have hstart : h.machine.Inv := Session.load_inv hload ▸ resetMeetsInvariant.load image
  exact hsteps.preserves stepKeepsInvariant hstart

/-- Settles O10: a step outside Running answers the same state, so being that state is kept by every step. -/
theorem stoppedMachineStaysStopped : Obligations.StoppedMachineStaysStopped := by
  intro s t hs hsteps
  refine hsteps.preserves (P := (· = s)) ?_ rfl
  rintro _ u rfl h
  obtain ⟨-, e⟩ | ⟨hr, -⟩ | ⟨hr, -⟩ := step_cases _
  · rw [e] at h; cases h; rfl
  · exact absurd hr hs
  · exact absurd hr hs

/-- Settles O47: the registers by `reset_getReg`, every other field as reset sets it. -/
theorem resetValues : Obligations.ResetValues :=
  ⟨rfl, State.reset_getReg 7, fun r hr => (State.reset_getReg r).trans (if_neg hr), rfl, fun _ => rfl,
    rfl, rfl, rfl, rfl, rfl⟩

end Sys2Proof.Machine
end
section
/-! The run state: every step answers, and which step enters Halted or Faulted. -/

namespace Sys2Proof.Machine

/-- Settles O8: an execution completes or takes its fault, and a step is either of these or a fault of the fetch. -/
theorem everyStepAnswersAState : Obligations.EveryStepAnswersAState := by
  refine ⟨fun i s => ?_, fun s => ?_⟩
  · obtain ⟨t, e, -⟩ | ⟨f, e, -⟩ := exec_cases i s
    · exact ⟨t, e⟩
    · exact ⟨_, e⟩
  · obtain ⟨-, e⟩ | ⟨-, f, -, e⟩ | ⟨-, i, -, -, t, -, e⟩ := step_cases s <;> exact ⟨_, e⟩

/-- A step whose fetch faults takes that fault. -/
theorem step_of_fetch_error {s : State} {f : Fault} (hs : s.run = .running) (h : fetch s = .error f) :
    step s = .next (s.raise f).clearLatches := by
  simp only [step, hs, h, endStep]

/-- A step executes the instruction it fetched and clears the latches. -/
theorem step_of_exec {s u t : State} {i : Instr} (hs : s.run = .running) (h : fetch s = .ok (i, u))
    (hx : exec i u = .next t) : step s = .next t.clearLatches := by
  simp only [step, hs, h, hx, endStep]

/-- An execution from Running ends in Halted exactly when it is of HLT. -/
theorem exec_halted_iff {i : Instr} {s t : State} (hs : s.run = .running) (h : exec i s = .next t) :
    t.run = .halted ↔ i = .hlt := by
  obtain he | ⟨f, rfl, hf⟩ := exec_inv h
  · rw [he.run_eq, hs]
    by_cases hi : i = .hlt <;> simp [hi]
  · constructor
    · intro e; cases e
    · rintro rfl; exact (congrArg State.run (Host.Outcome.next.inj h)).symm

/-- A step from Running ends in Halted exactly when it fetched HLT. -/
theorem step_halted_iff {s t : State} (hs : s.run = .running) (h : step s = .next t) :
    t.run = .halted ↔ ∃ u, fetch s = .ok (.hlt, u) := by
  obtain ⟨hn, -⟩ | ⟨-, f, hfetch, e⟩ | ⟨-, i, hfetch, -, u, hx, e⟩ := step_cases s
  · exact absurd hs hn
  all_goals rw [e] at h; cases h
  · simp [hfetch]
  · rw [State.clearLatches_run, exec_halted_iff (s := s.latched i) hs hx]
    simp [hfetch]

/-- A step from Running ends in Faulted with a record exactly when the fetch, or the rule of the fetched instruction, raised
the record's fault at the record's pc. -/
theorem step_faulted_iff {s t : State} (hs : s.run = .running) (h : step s = .next t) (f : FaultRecord) :
    t.run = .faulted f ↔ f.pc = s.pc ∧
      (fetch s = .error f.kind ∨ ∃ i u, fetch s = .ok (i, u) ∧ exec i u = .next (u.raise f.kind)) := by
  constructor
  · intro hf
    obtain ⟨hpc, -, hfetch | ⟨i, hfetch, hx, -⟩⟩ := step_faulted_inv hs h hf
    · exact ⟨hpc, .inl hfetch⟩
    · exact ⟨hpc, .inr ⟨i, _, hfetch, hx⟩⟩
  · obtain ⟨k, pc⟩ := f
    rintro ⟨rfl, hfetch | ⟨i, u, hfetch, hx⟩⟩
    · rw [step_of_fetch_error hs hfetch] at h
      cases h
      rfl
    · rw [step_of_exec hs hfetch hx] at h
      obtain ⟨rfl, -⟩ := fetch_ok_inv hfetch
      cases h
      rfl

/-- Settles O11: outside Running a step changes nothing; in Running each transition is one of the two equivalences. -/
theorem runStateTransitions : Obligations.RunStateTransitions := by
  refine fun s t h => ⟨fun hs => ?_, fun hs => ⟨step_halted_iff hs h, step_faulted_iff hs h⟩⟩
  exact congrArg State.run (stoppedMachineStaysStopped s t hs (.more h (.refl t)))

end Sys2Proof.Machine
end

section
/-! Noninterference: no instruction reads a latch, and none but JEQ and JNE reads FL. A `HiddenChange` rewrites these four
fields alone, and executing an instruction commutes with it. -/

namespace Sys2Proof.Machine

/-- A change of FL and of the latches, each as a function of its own value. -/
structure HiddenChange where
  fl : Byte → Byte
  ir : Option Byte → Option Byte
  opA : Option Byte → Option Byte
  opB : Option Byte → Option Byte

/-- The state with a hidden change made; memory, registers, pc, run state and output stay. -/
def HiddenChange.apply (c : HiddenChange) (s : State) : State :=
  { s with fl := c.fl s.fl, ir := c.ir s.ir, opA := c.opA s.opA, opB := c.opB s.opB }

/-- The part of a hidden change that leaves FL alone. -/
def HiddenChange.keepFl (c : HiddenChange) : HiddenChange := { c with fl := id }

section Commuting

variable (c : HiddenChange) (s : State)

theorem HiddenChange.apply_sp : (c.apply s).sp = s.sp := rfl

theorem HiddenChange.apply_setReg (r : Fin 8) (v : Byte) : (c.apply s).setReg r v = c.apply (s.setReg r v) := rfl

/-! The shared operations commute with a hidden change: what they decide does not depend on it. -/

theorem decSp_apply : decSp (c.apply s) = c.apply <$> decSp s := by
  obtain ⟨h, e⟩ | ⟨h, e⟩ := decSp_cases s
  · rw [e, decSp, HiddenChange.apply_sp, if_pos h]; rfl
  · rw [e, decSp, HiddenChange.apply_sp, if_neg h]; rfl

theorem setSpAfter_apply (base : Byte) : setSpAfter (c.apply s) base = c.apply <$> setSpAfter s base := by
  unfold setSpAfter
  split <;> rfl

theorem popByte_apply : popByte (c.apply s) = Prod.map id c.apply <$> popByte s := by
  simp only [popByte, HiddenChange.apply_sp, setSpAfter_apply, bind_map_left, map_bind]
  rfl

theorem storeAtSp_apply (v : Byte) : storeAtSp (c.apply s) v = c.apply <$> storeAtSp s v := by
  simp only [storeAtSp_eq]
  rfl

theorem branchRule_apply (taken : Bool) (a : Byte) :
    branchRule taken a (c.apply s) = c.apply <$> branchRule taken a s := by
  simp only [branchRule, map_bind]
  cases taken <;> rfl

theorem aluRule_apply {tag : AluTag} (h : tag ≠ .cmp) (a b : Byte) :
    aluRule tag a b (c.apply s) = c.apply <$> aluRule tag a b s := by
  simp only [aluRule, map_bind]
  cases tag with
  | cmp => exact absurd rfl h
  | _ => rfl

/-- CMP overwrites FL, so no change of FL is left after it. -/
theorem aluRule_cmp_apply (a b : Byte) :
    aluRule .cmp a b (c.apply s) = c.keepFl.apply <$> aluRule .cmp a b s := by
  simp only [aluRule, map_bind]
  rfl

variable {s}

/-- The end of a rule that commutes with a hidden change commutes with it. -/
theorem commit_apply {r r' : Except Fault State} {t : State} (hr : r' = c.apply <$> r) (h : s.commit r = .next t) :
    (c.apply s).commit r' = .next (c.apply t) := by
  subst hr
  obtain rfl | ⟨f, rfl, rfl⟩ := State.commit_cases h <;> rfl

/-- Executing an instruction commutes with a hidden change, when the change keeps E or the instruction is no conditional
jump; a CMP that completes leaves no change of FL. -/
theorem exec_apply {i : Instr} {t : State} (h : exec i s = .next t)
    (hE : (i.opcode ≠ .jeq ∧ i.opcode ≠ .jne) ∨ flagE (c.fl s.fl) = flagE s.fl) :
    exec i (c.apply s) = .next (c.apply t) ∨ exec i (c.apply s) = .next (c.keepFl.apply t) := by
  cases i with
  | cmp =>
    obtain e | ⟨f, e, rfl⟩ := State.commit_cases h
    · exact .inr (by rw [exec, execCmp, aluRule_cmp_apply, e]; rfl)
    · exact .inl (by rw [exec, execCmp, aluRule_cmp_apply, e]; rfl)
  | hlt => exact .inl (commit_apply (s := s) c (r := .ok (s.halt.advance 0)) rfl h)
  | ldi | prn | jmp => refine .inl (commit_apply c ?_ h); simp only [map_bind]; rfl
  | mul | add => exact .inl (commit_apply c (aluRule_apply c s (by decide) _ _) h)
  | push | call =>
    refine .inl (commit_apply c ?_ h)
    simp only [decSp_apply, storeAtSp_apply, bind_map_left, map_bind]
    rfl
  | pop =>
    refine .inl (commit_apply c ?_ h)
    simp only [HiddenChange.apply_setReg, setSpAfter_apply, bind_map_left, map_bind]
    rfl
  | ret =>
    refine .inl (commit_apply c ?_ h)
    simp only [popByte_apply, bind_map_left, map_bind]
    rfl
  | jeq | jne =>
    have hE' : flagE (c.apply s).fl = flagE s.fl := hE.resolve_left (by simp [Instr.opcode])
    simp only [exec, execJeq, execJne, hE'] at h ⊢
    exact .inl (commit_apply c (branchRule_apply c s _ _) h)

end Commuting

/-- Settles O26: a change of FL alone is a hidden change, and what it leaves in the next state is in FL. -/
theorem onlyEqualIsRead : Obligations.OnlyEqualIsRead := by
  intro i s t fl h hE
  obtain e | e := exec_apply ⟨fun _ => fl, id, id, id⟩ h hE <;> exact ⟨_, e, rfl⟩

/-- The latches of a fetched instruction are the bytes at pc, pc + 1 and pc + 2, as many as it has. -/
theorem fetch_latches {s u : State} {i : Instr} (h : fetch s = .ok (i, u)) :
    u.ir = some (s.readByte s.pc) ∧
    u.opA = (if 1 ≤ i.opcode.operandCount then some (s.readByte (s.pc + 1)) else none) ∧
    u.opB = (if i.opcode.operandCount = 2 then some (s.readByte (s.pc + 2)) else none) := by
  obtain ⟨-, e⟩ | ⟨-, -, e⟩ | ⟨-, op, -, -, e⟩ | ⟨op, hop, -, e⟩ := fetch_cases s <;> rw [e] at h <;> cases h
  rw [opcodeOf_of_decodeOpcode hop]
  cases op <;> exact ⟨rfl, rfl, rfl⟩

/-- No latch is held after a step from Running. -/
theorem step_clears_latches {s t : State} (hs : s.run = .running) (h : step s = .next t) :
    t.ir = none ∧ t.opA = none ∧ t.opB = none := by
  obtain ⟨hn, -⟩ | ⟨-, f, -, e⟩ | ⟨-, i, -, -, u, -, e⟩ := step_cases s
  · exact absurd hs hn
  all_goals rw [e] at h; cases h; exact ⟨rfl, rfl, rfl⟩

/-- Settles O7: what a fetch latches, that a step clears it, and that a change of the latches alone is a hidden change that
an execution commutes with. -/
theorem latchesLiveWithinOneStep : Obligations.LatchesLiveWithinOneStep := by
  refine ⟨fun s u i h => fetch_latches h, fun s t hs h => step_clears_latches hs h, fun i s t ir a b h => ?_⟩
  obtain e | e := exec_apply ⟨id, fun _ => ir, fun _ => a, fun _ => b⟩ h (.inr rfl) <;> exact e

end Sys2Proof.Machine
end

section
/-! Memory: the range of its primitives, the uniqueness of its canonical form, the byte that PUSH and CALL store, and what
reads it. -/

namespace Sys2Proof.Machine

/-! ### The primitives -/

theorem outOfRange_iff (addr : Int) : outOfRange addr = true ↔ addr < 0 ∨ 255 < addr := by
  simp [outOfRange]

theorem memRead_of_outOfRange (s : State) {addr : Int} (h : outOfRange addr = true) :
    memRead s addr = .error (.memoryOutOfBounds addr) := if_pos h

theorem memWrite_of_outOfRange (s : State) {addr : Int} (v : Byte) (h : outOfRange addr = true) :
    memWrite s addr v = .error (.memoryOutOfBounds addr) := if_pos h

/-- Settles O41: outside 0..255 both primitives fault with the address itself; inside, a write is one `Memory.put`, which the
laws of `Memory.get` describe. -/
theorem memoryPrimitivesCheckTheirRange : Obligations.MemoryPrimitivesCheckTheirRange := by
  refine ⟨fun s addr v h => ?_, fun s addr v h => ?_⟩
  · have hout := (outOfRange_iff addr).mpr h
    exact ⟨memRead_of_outOfRange s hout, memWrite_of_outOfRange s v hout⟩
  · have hin : addr < 256 := Nat.lt_succ_of_le h
    refine ⟨memRead_ok s hin, _, memWrite_ok s v hin, rfl, fun hw => ?_, fun c hc => Memory.get_put_other hc v s.mem⟩
    rw [memRead_ok _ hin]
    exact congrArg Except.ok (Memory.get_put_self hw addr v)

/-! ### The canonical form -/

theorem Memory.wfFrom_cons {low addr : Nat} {byte : Byte} {rest : Memory} :
    Memory.wfFrom low ((addr, byte) :: rest) = true ↔
      low ≤ addr ∧ addr < 256 ∧ byte ≠ Config.memFill ∧ Memory.wfFrom (addr + 1) rest = true := by
  simp [Memory.wfFrom, and_assoc]

theorem Memory.get_cons_self (addr : Nat) (byte : Byte) (rest : Memory) :
    Memory.get addr ((addr, byte) :: rest) = byte := if_pos rfl

theorem Memory.get_cons_other {addr a : Nat} (h : addr ≠ a) (byte : Byte) (rest : Memory) :
    Memory.get a ((addr, byte) :: rest) = rest.get a := if_neg h

/-- The first listed cell of a canonical memory stands at or below every cell that does not hold the fill value. -/
theorem Memory.head_le_of_get_ne_fill {low addr a : Nat} {byte : Byte} {rest : Memory}
    (hw : Memory.wfFrom low ((addr, byte) :: rest) = true)
    (h : Memory.get a ((addr, byte) :: rest) ≠ Config.memFill) : addr ≤ a := by
  obtain ⟨-, haddr, hbyte, hrest⟩ := Memory.wfFrom_cons.mp hw
  by_contra hlt
  exact h (Memory.get_below (Memory.wfFrom_cons.mpr ⟨le_rfl, haddr, hbyte, hrest⟩) (by omega))

/-- A canonical memory that reads as the fill value at every address lists no cell. -/
theorem Memory.eq_nil_of_get {low : Nat} {m : Memory} (hw : Memory.wfFrom low m = true)
    (h : ∀ a, a < 256 → m.get a = Config.memFill) : m = [] := by
  cases m with
  | nil => rfl
  | cons cell rest =>
    obtain ⟨addr, byte⟩ := cell
    obtain ⟨-, haddr, hbyte, -⟩ := Memory.wfFrom_cons.mp hw
    exact absurd (Memory.get_cons_self addr byte rest ▸ h addr haddr) hbyte

/-- Canonical memories that read alike are equal: neither's first cell can stand below the other's, so they stand at one
address, hold the byte read there, and the remaining cells, above it, read alike again. -/
theorem Memory.eq_of_get_eq {low : Nat} {m n : Memory} (hm : Memory.wfFrom low m = true)
    (hn : Memory.wfFrom low n = true) (h : ∀ a, a < 256 → m.get a = n.get a) : m = n := by
  induction m generalizing low n with
  | nil => exact (Memory.eq_nil_of_get hn fun a ha => (h a ha).symm).symm
  | cons cell rest ih =>
    obtain ⟨addr, byte⟩ := cell
    cases n with
    | nil => exact Memory.eq_nil_of_get hm h
    | cons cell' rest' =>
      obtain ⟨addr', byte'⟩ := cell'
      obtain ⟨-, ha, hb, hrest⟩ := Memory.wfFrom_cons.mp hm
      obtain ⟨-, ha', hb', hrest'⟩ := Memory.wfFrom_cons.mp hn
      have hle : addr ≤ addr' := Memory.head_le_of_get_ne_fill hm (by rwa [h addr' ha', Memory.get_cons_self])
      have hge : addr' ≤ addr := Memory.head_le_of_get_ne_fill hn (by rwa [← h addr ha, Memory.get_cons_self])
      obtain rfl : addr = addr' := Nat.le_antisymm hle hge
      obtain rfl : byte = byte' := by simpa only [Memory.get_cons_self] using h addr ha
      have hrests : rest = rest' := ih hrest hrest' fun a ha256 => by
        by_cases hlt : a < addr + 1
        · rw [Memory.get_below hrest hlt, Memory.get_below hrest' hlt]
        · have hne : addr ≠ a := by omega
          simpa only [Memory.get_cons_other hne] using h a ha256
      rw [hrests]

/-- Settles O42: by induction over the cells, with the bound of the canonical form free. -/
theorem canonicalMemoryIsUnique : Obligations.CanonicalMemoryIsUnique :=
  fun _ _ => Memory.eq_of_get_eq

/-! ### The byte that PUSH and CALL store -/

theorem State.sp_pushed (s : State) (v : Byte) : (s.pushed v).sp = BitVec.ofNat 8 (s.sp.toNat - 1) :=
  s.sp_setReg_seven _

/-- The byte a push stores reads back at the SP it leaves. -/
theorem State.readByte_sp_pushed {s : State} (hw : s.mem.wf = true) (v : Byte) :
    (s.pushed v).readByte (s.pushed v).sp.toNat = v := by
  rw [State.sp_pushed, pushed_toNat]
  exact Memory.get_put_self hw _ v

/-- A push changes no byte but the one at the SP it leaves. -/
theorem State.readByte_pushed_other (s : State) (v : Byte) {c : Nat} (hc : c ≠ s.sp.toNat - 1) :
    (s.pushed v).readByte c = s.readByte c :=
  Memory.get_put_other hc v s.mem

/-- A PUSH or CALL that completes has decremented an SP above 0, and its memory is that of a push of one byte. -/
theorem Effect.mem_pushed {i : Instr} {s t : State} (h : Effect i s t) (hi : i.opcode = .push ∨ i.opcode = .call) :
    s.sp.toNat ≠ 0 ∧ ∃ v, t.mem = (s.pushed v).mem := by
  cases i with
  | push => obtain ⟨r, -, hsp, rfl⟩ := h; exact ⟨hsp, _, rfl⟩
  | call => obtain ⟨r, -, hsp, -, rfl⟩ := h; exact ⟨hsp, _, rfl⟩
  | _ => simp [Instr.opcode] at hi

/-- Settles O38: a fault keeps all of memory; an effect stores at the decremented SP, and then the decrement has not
faulted. -/
theorem storeGoesToTheNewTop : Obligations.StoreGoesToTheNewTop := by
  intro i s t hi h
  obtain he | ⟨f, rfl, -⟩ := exec_inv h
  swap
  · exact ⟨fun _ _ _ _ => rfl, fun _ _ _ => rfl⟩
  obtain ⟨hsp, v, hmem⟩ := he.mem_pushed hi
  obtain ⟨-, hdec⟩ := (decSp_cases s).resolve_left fun hz => hsp hz.1
  refine ⟨fun u hu c hc => ?_, fun f hf => ?_⟩
  · obtain rfl := Except.ok.inj (hdec.symm.trans hu)
    rw [State.sp_setReg_seven, pushed_toNat] at hc
    rw [State.readByte, hmem]
    exact s.readByte_pushed_other v hc
  · cases hdec.symm.trans hf

/-- A fetch of a byte that is no opcode is an unknown instruction of that byte. -/
theorem fetch_of_unknown {s : State} (hpc : s.pc < 256) (hd : decodeOpcode (s.readByte s.pc) = none) :
    fetch s = .error (.unknownInstruction (s.readByte s.pc)) := by
  simp only [fetch, memRead_ok s hpc, hd, bind, Except.bind]

/-- A fetch of an opcode whose operand bytes lie in memory answers an instruction of that opcode. -/
theorem fetch_of_opcode {s : State} {op : Opcode} (hd : decodeOpcode (s.readByte s.pc) = some op)
    (hn : s.pc + op.operandCount ≤ 255) : ∃ j u, fetch s = .ok (j, u) ∧ j.opcode = op := by
  obtain ⟨hpc, -⟩ | ⟨-, hd', -⟩ | ⟨-, op', hd', hn', -⟩ | ⟨op', hd', -, e⟩ := fetch_cases s
  · omega
  all_goals rw [hd] at hd'; cases hd'
  · omega
  · exact ⟨_, _, e, opcode_assemble op _ _⟩

/-- Settles O43: the fetch by what stands at its pc; the stored byte by the effect of PUSH and of CALL. -/
theorem storedByteIsFetched : Obligations.StoredByteIsFetched := by
  intro i s t hw hs hi h ht
  obtain he | ⟨f, rfl, -⟩ := exec_inv h
  swap
  · cases ht
  refine ⟨fetch_of_unknown (s := { t with pc := t.sp.toNat }) t.sp.isLt,
    fun op => fetch_of_opcode (s := { t with pc := t.sp.toNat }), ?_, ?_⟩
  · rintro a rfl r hr ha
    obtain ⟨q, hq, -, rfl⟩ := he
    obtain rfl : q = r := Fin.ext (hq.symm.trans ha)
    exact (State.readByte_sp_pushed hw _).trans (s.getReg_setReg_other _ hr.symm)
  · rintro a rfl
    obtain ⟨q, -, -, hpc, rfl⟩ := he
    calc _ = (BitVec.ofNat 8 (s.pc + 2)).toNat := congrArg BitVec.toNat (State.readByte_sp_pushed hw _)
      _ = s.pc + 2 := by rw [BitVec.toNat_ofNat, Nat.mod_eq_of_lt (by omega)]

/-! ### What reads memory -/

/-- The state with another memory. -/
def State.withMem (s : State) (m : Memory) : State := { s with mem := m }

section OtherMemory

variable (s : State) (m : Memory)

theorem State.sp_withMem : (s.withMem m).sp = s.sp := rfl

theorem State.setReg_withMem (r : Fin 8) (v : Byte) : (s.withMem m).setReg r v = (s.setReg r v).withMem m := rfl

theorem decSp_withMem : decSp (s.withMem m) = (·.withMem m) <$> decSp s := by
  obtain ⟨h, e⟩ | ⟨h, e⟩ := decSp_cases s
  · rw [e, decSp, State.sp_withMem, if_pos h]; rfl
  · rw [e, decSp, State.sp_withMem, if_neg h]; rfl

theorem setSpAfter_withMem (base : Byte) :
    setSpAfter (s.withMem m) base = (·.withMem m) <$> setSpAfter s base := by
  unfold setSpAfter
  split <;> rfl

theorem branchRule_withMem (n : Memory) (taken : Bool) (a : Byte) :
    (·.withMem n) <$> branchRule taken a (s.withMem m) = (·.withMem n) <$> branchRule taken a s := by
  simp only [branchRule, map_bind]
  cases taken <;> rfl

variable {s m}

theorem memRead_sp_withMem (hm : m.get s.sp.toNat = s.readByte s.sp.toNat) :
    memRead (s.withMem m) (s.sp.toNat : Int) = memRead s (s.sp.toNat : Int) := by
  rw [memRead_sp, memRead_ok _ s.sp.isLt]
  exact congrArg Except.ok hm

/-- Rules that answer alike but for memory end in states alike but for memory. -/
theorem commit_withMem {r r' : Except Fault State} {t : State}
    (hr : ∀ n, (·.withMem n) <$> r' = (·.withMem n) <$> r) (h : s.commit r = .next t) :
    ∃ u, (s.withMem m).commit r' = .next u ∧ ∀ n, u.withMem n = t.withMem n := by
  obtain rfl | ⟨f, rfl, rfl⟩ := State.commit_cases h
  · cases r' with
    | ok u => exact ⟨u, rfl, fun n => Except.ok.inj (hr n)⟩
    | error f => cases hr m
  · cases r' with
    | ok u => cases hr m
    | error g => cases hr m; exact ⟨_, rfl, fun _ => rfl⟩

/-- With another memory that POP and RET read the same byte at SP from, an execution ends alike but for memory. -/
theorem exec_withMem {i : Instr} {t : State} (h : exec i s = .next t)
    (hm : i.opcode = .pop ∨ i.opcode = .ret → m.get s.sp.toNat = s.readByte s.sp.toNat) :
    ∃ u, exec i (s.withMem m) = .next u ∧ ∀ n, u.withMem n = t.withMem n := by
  cases i with
  | hlt => cases h; exact ⟨_, rfl, fun _ => rfl⟩
  | ldi | prn | jmp => refine commit_withMem (fun n => ?_) h; simp only [map_bind]; rfl
  | mul | add | cmp => refine commit_withMem (fun n => ?_) h; simp only [aluRule, map_bind]; rfl
  | push | call =>
    refine commit_withMem (fun n => ?_) h
    simp only [decSp_withMem, storeAtSp_eq, bind_map_left, map_bind]
    rfl
  | pop =>
    refine commit_withMem (fun n => ?_) h
    simp only [State.sp_withMem, memRead_sp_withMem (hm (.inl rfl)), State.setReg_withMem, setSpAfter_withMem,
      bind_map_left, map_bind]
    rfl
  | ret =>
    refine commit_withMem (fun n => ?_) h
    simp only [popByte, State.sp_withMem, memRead_sp_withMem (hm (.inr rfl)), setSpAfter_withMem, bind_map_left, map_bind,
      bind_assoc, pure_bind]
    rfl
  | jeq | jne => exact commit_withMem (fun n => branchRule_withMem s m n _ _) h

end OtherMemory

/-- Settles O37: the memory frame; and an execution with another memory ends alike but for memory, which the frame again says
is the other one, but after PUSH and CALL. -/
theorem onlyPushAndCallStore : Obligations.OnlyPushAndCallStore := by
  refine ⟨fun i s t h hpush hcall c => ?_, fun i s t m h hpush hcall hm => ?_, fun i s t m h hi => ?_⟩
  · rw [State.readByte, (exec_frame h).mem hpush hcall, State.readByte]
  · obtain ⟨u, hu, hut⟩ := exec_withMem h hm
    have hmem : u.mem = m := (exec_frame hu).mem hpush hcall
    have hum : u = t.withMem m := by rw [← hut m, ← hmem]; rfl
    exact hu.trans (congrArg Host.Outcome.next hum)
  · obtain ⟨u, hu, hut⟩ := exec_withMem (m := m) h (by rcases hi with hi | hi <;> simp [hi])
    exact ⟨u, hu, hut t.mem⟩

end Sys2Proof.Machine
end

section
/-! Decoding and encoding: the decoder's answer on an encoding, and the only byte sequences that it answers an instruction
for; the operand count in the opcode byte; the words written out from the spec. -/

namespace Sys2Proof

/-- An assembled instruction's encoding is the opcode byte and as many of the bytes given as the opcode has operands. -/
theorem encode_assemble (op : Opcode) (a b : Byte) :
    encode (op.assemble a b) = [opcodeOf op, a, b].take (op.operandCount + 1) := by
  rw [encode, opcode_assemble, operands_assemble, List.take_succ_cons]

/-- Decoding an encoding answers the instruction and leaves the bytes after it. -/
theorem decode_encode_append (i : Instr) (rest : List Byte) : decode (encode i ++ rest) = .ok (i, rest) := by
  rw [encode, List.cons_append, decode, decodeOpcode_opcodeOf]
  cases i <;> rfl

/-- A byte sequence that decodes is the encoding of what it decodes to, before the bytes left over. -/
theorem eq_encode_append_of_decode {bytes rest : List Byte} {i : Instr} (h : decode bytes = .ok (i, rest)) :
    bytes = encode i ++ rest := by
  cases bytes with
  | nil => cases h
  | cons byte0 tail =>
    cases hop : decodeOpcode byte0 with
    | none => simp [decode, hop] at h
    | some op =>
      simp only [decode, hop] at h
      obtain rfl := opcodeOf_of_decodeOpcode hop
      split at h
      case h_4 => cases h
      all_goals
        rename_i hcount
        cases h
        rw [encode_assemble, hcount]
        rfl

/-- Settles O2: a decoded sequence is an encoding by the cases of the opcode and its operand count; an encoding decodes by the
cases of the instruction. -/
theorem decodeAndEncodeAgree : Obligations.DecodeAndEncodeAgree := by
  refine fun bytes rest i => ⟨eq_encode_append_of_decode, ?_⟩
  rintro rfl
  exact decode_encode_append i rest

/-- Settles O1: each word evaluates. -/
theorem specWordsDecode : Obligations.SpecWordsDecode :=
  ⟨rfl, rfl, rfl, rfl, rfl, rfl, rfl, rfl, rfl, rfl, rfl⟩

/-- The operand count by table stands in bits [7:6] of the opcode byte. -/
theorem operandCount_eq_countField (op : Opcode) : op.operandCount = countField (opcodeOf op) := by
  cases op <;> rfl

/-- Settles O3: a byte with bits [7:6] = 3 that decoded to an opcode would give it three operands. -/
theorem operandCountStandsInHighBits : Obligations.OperandCountStandsInHighBits := by
  refine ⟨operandCount_eq_countField, fun b hb => Option.eq_none_iff_forall_ne_some.mpr fun op hop => ?_⟩
  have hcount : op.operandCount = 3 := by
    rw [operandCount_eq_countField, ← opcodeOf_of_decodeOpcode hop, hb]
  have := operandCount_le op
  omega

/-- A byte is unknown exactly when it stands in no row of the opcode map. -/
theorem decodeOpcode_eq_none_iff (b : Byte) : decodeOpcode b = none ↔ b ∉ Opcode.all.map opcodeOf := by
  simp [decodeOpcode, List.find?_eq_none]

end Sys2Proof
end

section
/-! The step cycle: the fetch reads the instruction that the bytes at the pc decode to, or faults; a step outside Running;
a bounded run. -/

namespace Sys2Proof.Machine

/-! ### The fetch against the decoder -/

/-- The bytes a fetch can reach are the first of the three from the pc on, as many as memory has there. -/
theorem State.codeBytes_eq_take (s : State) :
    s.codeBytes = [s.readByte s.pc, s.readByte (s.pc + 1), s.readByte (s.pc + 2)].take (256 - s.pc) := by
  rcases h : 256 - s.pc with _ | _ | _ | n
  · simp [codeBytes, show 256 ≤ s.pc by omega, show 256 ≤ s.pc + 1 by omega, show 256 ≤ s.pc + 2 by omega]
  · simp [codeBytes, Config.memSize, show s.pc = 255 by omega]
  · simp [codeBytes, Config.memSize, show s.pc = 254 by omega]
  · simp [codeBytes, show s.pc < 256 by omega, show s.pc + 1 < 256 by omega, show s.pc + 2 < 256 by omega]

/-- An instruction assembled from the bytes at the pc, none past 255, stands encoded at the head of the bytes a fetch can
reach. -/
theorem State.codeBytes_of_opcode {s : State} {op : Opcode} (hop : s.readByte s.pc = opcodeOf op)
    (hn : s.pc + op.operandCount < 256) :
    ∃ rest, s.codeBytes = encode (op.assemble (s.readByte (s.pc + 1)) (s.readByte (s.pc + 2))) ++ rest := by
  refine ⟨s.codeBytes.drop (op.operandCount + 1), ?_⟩
  have hhead : s.codeBytes.take (op.operandCount + 1) =
      encode (op.assemble (s.readByte (s.pc + 1)) (s.readByte (s.pc + 2))) := by
    rw [encode_assemble, s.codeBytes_eq_take, List.take_take, Nat.min_eq_left (by omega), hop]
  rw [← hhead, List.take_append_drop]

/-- An encoding at the head of the bytes a fetch can reach has its opcode byte at the pc and ends in memory. -/
theorem State.opcode_of_codeBytes {s : State} {i : Instr} {rest : List Byte} (h : s.codeBytes = encode i ++ rest) :
    s.readByte s.pc = opcodeOf i.opcode ∧ s.pc + i.opcode.operandCount < 256 := by
  rw [s.codeBytes_eq_take] at h
  have hlen := congrArg List.length h
  simp only [encode, List.length_take, List.length_append, List.length_cons, List.length_nil, operands_length] at hlen
  obtain ⟨n, hpc⟩ : ∃ n, 256 - s.pc = n + 1 := ⟨255 - s.pc, by omega⟩
  rw [hpc, List.take_succ_cons, encode, List.cons_append] at h
  exact ⟨(List.cons.inj h).1, by omega⟩

/-- A fetch answers the instruction that the bytes at the pc decode to, with its latches. -/
theorem fetch_of_decode {s : State} {i : Instr} {rest : List Byte} (h : decode s.codeBytes = .ok (i, rest)) :
    fetch s = .ok (i, s.latched i) := by
  obtain ⟨hop, hn⟩ := State.opcode_of_codeBytes (eq_encode_append_of_decode h)
  have hd : decodeOpcode (s.readByte s.pc) = some i.opcode := by rw [hop, decodeOpcode_opcodeOf]
  obtain ⟨hpc, -⟩ | ⟨-, hd', -⟩ | ⟨-, op, hd', hn', -⟩ | ⟨op, hd', -, e⟩ := fetch_cases s
  · omega
  all_goals rw [hd] at hd'; cases hd'
  · omega
  · obtain ⟨rest', hcode⟩ := State.codeBytes_of_opcode hop hn
    rw [hcode, decode_encode_append] at h
    obtain ⟨hi, -⟩ := Prod.mk.inj (Except.ok.inj h)
    rwa [hi] at e

/-- Settles O4: the fetch answers the decoded instruction, whose execution always answers a state. -/
theorem stepRunsDecodedInstruction : Obligations.StepRunsDecodedInstruction := by
  intro s i rest hs h
  obtain ⟨hexec, -⟩ := everyStepAnswersAState
  obtain ⟨t, ht⟩ := hexec i (s.latched i)
  exact ⟨t, ht, step_of_exec hs (fetch_of_decode h) ht⟩

/-! ### The faults of the fetch -/

/-- Settles O5: the thirteen bytes are the rows of the opcode map, so the fetch faults, and the step takes that fault. -/
theorem unknownOpcodeFaults : Obligations.UnknownOpcodeFaults := by
  intro s hs hpc hb
  have hd : decodeOpcode (s.readByte s.pc) = none := (decodeOpcode_eq_none_iff _).mpr hb
  exact step_of_fetch_error hs (fetch_of_unknown (by omega) hd)

/-- A fetch of an opcode byte past 255 faults with the pc. -/
theorem fetch_of_pc_ge {s : State} (hpc : 256 ≤ s.pc) : fetch s = .error (.memoryOutOfBounds s.pc) := by
  simp only [fetch, memRead_error s hpc, bind, Except.bind]

/-- A fetch of an opcode whose operand bytes pass 255 faults with the address 256. -/
theorem fetch_of_operands_past {s : State} {op : Opcode} (hpc : s.pc < 256)
    (hop : s.readByte s.pc = opcodeOf op) (hn : 256 ≤ s.pc + op.operandCount) :
    fetch s = .error (.memoryOutOfBounds 256) := by
  have hd : decodeOpcode (s.readByte s.pc) = some op := by rw [hop, decodeOpcode_opcodeOf]
  obtain ⟨hpc', -⟩ | ⟨-, hd', -⟩ | ⟨-, -, -, -, e⟩ | ⟨op', hd', hn', -⟩ := fetch_cases s
  · omega
  · rw [hd] at hd'; cases hd'
  · exact e
  · rw [hd] at hd'; cases hd'; omega

/-- Settles O6: the fetch of the opcode or of an operand faults, and the step takes that fault. -/
theorem fetchPastTheEndFaults : Obligations.FetchPastTheEndFaults := by
  refine ⟨fun s hs hpc => ?_, fun s op hs hpc hop hn => ?_⟩
  · exact step_of_fetch_error hs (fetch_of_pc_ge hpc)
  · exact step_of_fetch_error hs (fetch_of_operands_past (by omega) hop hn)

/-! ### Outside Running, and runs -/

/-- Settles O9: of the cases of a step, the only one outside Running. -/
theorem stepOutsideRunningChangesNothing : Obligations.StepOutsideRunningChangesNothing := by
  intro s hs
  obtain ⟨-, e⟩ | ⟨hr, -⟩ | ⟨hr, -⟩ := step_cases s
  · exact e
  all_goals exact absurd hr hs

/-- A run of a positive bound takes one step, and ends there unless that step's result is Ok. -/
theorem runSteps_succ {s u : State} (n : Nat) (h : step s = .next u) :
    runSteps (n + 1) s = if u.result = .ok then runSteps n u else some (u, u.result) := by
  rw [runSteps, h]

/-- Settles O50: by induction on the bound; the first step ends the run, or the rest of the run does. -/
theorem runEndsOnlyHaltedOrFaulted : Obligations.RunEndsOnlyHaltedOrFaulted := by
  intro n k s t r h
  induction n generalizing s with
  | zero => cases h
  | succ n ih =>
    obtain ⟨-, hstep⟩ := everyStepAnswersAState
    obtain ⟨u, hu⟩ := hstep s
    rw [runSteps_succ n hu] at h
    rw [Nat.succ_add, runSteps_succ (n + k) hu]
    split at h
    next hok =>
      obtain ⟨hr, hrt, hsteps, hmore⟩ := ih u h
      exact ⟨hr, hrt, .more hu hsteps, (if_pos hok).trans hmore⟩
    next hend =>
      cases h
      exact ⟨hend, rfl, .more hu (.refl _), if_neg hend⟩

end Sys2Proof.Machine
end

section
/-! HLT, LDI, PRN: what a rule that begins with the check of its register does, and the whole next state of each of the
three. -/

namespace Sys2Proof.Machine

/-- A rule that checks a byte naming a register goes on with that register. -/
theorem State.commit_chkreg_of_eq {a : Byte} {r : Fin 8} (ha : a.toNat = r.val) (s : State)
    (rule : Fin 8 → Except Fault State) : s.commit (chkreg a >>= rule) = s.commit (rule r) := by
  rw [chkreg_of_eq ha]
  rfl

/-- A rule that checks a byte above 7 ends there: the fault is taken in the state the instruction started from. -/
theorem State.commit_chkreg_of_ge {a : Byte} (ha : 8 ≤ a.toNat) (s : State) (rule : Fin 8 → Except Fault State) :
    s.commit (chkreg a >>= rule) = .next (s.raise (.registerOutOfBounds a)) := by
  rw [chkreg_of_ge ha]
  rfl

/-- LDI to a register writes the immediate there and moves on. -/
theorem exec_ldi_of_eq {a : Byte} {r : Fin 8} (ha : a.toNat = r.val) (imm : Byte) (s : State) :
    exec (.ldi a imm) s = .next ((s.setReg r imm).advance 2) :=
  s.commit_chkreg_of_eq ha _

/-- Settles O16: HLT has no operand to check, so its rule completes in every state; after it the step is one outside
Running. -/
theorem hltHalts : Obligations.HltHalts := by
  refine ⟨rfl, fun s => rfl, fun s hs => stepOutsideRunningChangesNothing s ?_⟩
  simp [hs]

/-- Settles O17: by whether the check of the destination passes. -/
theorem ldiLoadsImmediate : Obligations.LdiLoadsImmediate :=
  ⟨fun s _ imm _ ha => exec_ldi_of_eq ha imm s, fun s _ _ ha => s.commit_chkreg_of_ge ha _⟩

/-- Settles O18: by whether the check of the source passes. -/
theorem prnEmitsRegister : Obligations.PrnEmitsRegister :=
  ⟨fun s _ _ ha => exec_prn_of_eq ha s, fun s _ ha => s.commit_chkreg_of_ge ha _⟩

/-- Settles O19: PRN reads the register that LDI has just written. -/
theorem ldiThenPrnEmitsTheValue : Obligations.LdiThenPrnEmitsTheValue := by
  intro s a v ha
  obtain ⟨r, hr⟩ : ∃ r : Fin 8, a.toNat = r.val := ⟨⟨_, ha⟩, rfl⟩
  refine ⟨_, _, exec_ldi_of_eq hr v s, exec_prn_of_eq hr _, ?_, rfl⟩
  have hread : ((s.setReg r v).advance 2).getReg r = v := by simp
  rw [hread]
  rfl

end Sys2Proof.Machine
end

section
/-! MUL, ADD, CMP: what the rule they share does with valid and with bad register operands, what each flag of a
comparison says, and the whole next state of each of the three. -/

namespace Sys2Proof.Machine

/-! ### The rule of the instructions that select the ALU -/

/-- A rule that selects the ALU with two bytes naming registers runs the operation on these and moves on. -/
theorem aluRule_of_eq (tag : AluTag) {a b : Byte} {ra rb : Fin 8} (ha : a.toNat = ra.val) (hb : b.toNat = rb.val)
    (s : State) : aluRule tag a b s = (alu tag ra rb s).map (·.advance 2) := by
  rw [aluRule, chkregs_of_eq ha hb]
  cases tag <;> rfl

/-- Its first check fails on a first byte above 7, whatever the second byte is. -/
theorem State.commit_aluRule_of_left_ge (s : State) (tag : AluTag) {a : Byte} (b : Byte) (ha : 8 ≤ a.toNat) :
    s.commit (aluRule tag a b s) = .next (s.raise (.registerOutOfBounds a)) := by
  rw [aluRule, chkregs, chkreg_of_ge ha]
  rfl

/-- Its second check, made once the first has passed, fails on a second byte above 7. -/
theorem State.commit_aluRule_of_right_ge (s : State) (tag : AluTag) {a b : Byte} (ha : a.toNat < 8)
    (hb : 8 ≤ b.toNat) : s.commit (aluRule tag a b s) = .next (s.raise (.registerOutOfBounds b)) := by
  rw [aluRule, chkregs, chkreg_of_lt ha, chkreg_of_ge hb]
  rfl

/-! ### The ALU's results -/

@[simp] theorem toNat_mulMod (u v : Byte) : (mulMod u v).toNat = u.toNat * v.toNat % 256 := by
  simp [mulMod]

@[simp] theorem toNat_addMod (u v : Byte) : (addMod u v).toNat = (u.toNat + v.toNat) % 256 := by
  simp [addMod]

/-- In each of the three orders of two values a comparison sets the flag of that order and clears the other two. -/
theorem flags_compareFlags (u v : Byte) :
    (flagE (compareFlags u v) = true ↔ u.toNat = v.toNat) ∧
      (flagG (compareFlags u v) = true ↔ v.toNat < u.toNat) ∧
      (flagL (compareFlags u v) = true ↔ u.toNat < v.toNat) := by
  obtain ⟨h, e⟩ | ⟨h, e⟩ | ⟨h, e⟩ := compareFlags_cases u v <;> rw [e]
  · simp [flagE, flagG, flagL, h]
  · simp [flagE, flagG, flagL, h, Nat.ne_of_gt h, Nat.le_of_lt h]
  · simp [flagE, flagG, flagL, h, Nat.ne_of_lt h, Nat.le_of_lt h]

/-! ### The three instructions on valid operands -/

section
variable {a b : Byte} {ra rb : Fin 8} (ha : a.toNat = ra.val) (hb : b.toNat = rb.val) (s : State)
include ha hb

theorem exec_mul_of_eq :
    exec (.mul a b) s = .next ((s.setReg ra (mulMod (s.getReg ra) (s.getReg rb))).advance 2) := by
  rw [exec, execMul, aluRule_of_eq .mul ha hb]
  rfl

theorem exec_add_of_eq :
    exec (.add a b) s = .next ((s.setReg ra (addMod (s.getReg ra) (s.getReg rb))).advance 2) := by
  rw [exec, execAdd, aluRule_of_eq .add ha hb]
  rfl

theorem exec_cmp_of_eq :
    exec (.cmp a b) s = .next { s with fl := compareFlags (s.getReg ra) (s.getReg rb), pc := s.pc + 3 } := by
  rw [exec, execCmp, aluRule_of_eq .cmp ha hb]
  rfl

end

/-! ### The statements -/

/-- Settles O20: the product on valid indices, else the fault of the first bad one. -/
theorem mulMultipliesModulo256 : Obligations.MulMultipliesModulo256 :=
  ⟨fun s _ _ _ _ ha hb => exec_mul_of_eq ha hb s,
    fun s _ b ha => s.commit_aluRule_of_left_ge .mul b ha,
    fun s _ _ ha hb => s.commit_aluRule_of_right_ge .mul ha hb⟩

/-- Settles O21: the sum on valid indices, else the fault of the first bad one. -/
theorem addAddsModulo256 : Obligations.AddAddsModulo256 :=
  ⟨fun s _ _ _ _ ha hb => exec_add_of_eq ha hb s,
    fun s _ b ha => s.commit_aluRule_of_left_ge .add b ha,
    fun s _ _ ha hb => s.commit_aluRule_of_right_ge .add ha hb⟩

/-- Settles O22: the destination of the next state reads as the ALU's result, and neither the register write nor the
advance touches FL or the run state. -/
theorem arithmeticKeepsLowEightBits : Obligations.ArithmeticKeepsLowEightBits := by
  intro s a b ra rb ha hb
  refine ⟨⟨_, exec_add_of_eq ha hb s, ?_, rfl, rfl⟩, ⟨_, exec_mul_of_eq ha hb s, ?_, rfl, rfl⟩⟩
  · rw [State.getReg_advance, State.getReg_setReg_self, toNat_addMod]
  · rw [State.getReg_advance, State.getReg_setReg_self, toNat_mulMod]

/-- Settles O23: FL by the unsigned order on valid indices, else the fault of the first bad one. -/
theorem cmpSetsFlags : Obligations.CmpSetsFlags :=
  ⟨fun s _ _ _ _ ha hb => exec_cmp_of_eq ha hb s,
    fun s _ b ha => s.commit_aluRule_of_left_ge .cmp b ha,
    fun s _ _ ha hb => s.commit_aluRule_of_right_ge .cmp ha hb⟩

/-- Settles O24: the FL byte that CMP leaves is that of the comparison, whose flags say the order. -/
theorem compareIsUnsigned : Obligations.CompareIsUnsigned :=
  fun s _ _ ra rb ha hb => ⟨_, exec_cmp_of_eq ha hb s, flags_compareFlags (s.getReg ra) (s.getReg rb)⟩

end Sys2Proof.Machine
end

section
/-! PUSH and POP: each rule with its register checked and its SP in range, the fault it takes when SP is not, and the
round trip of a PUSH and a POP of one register. -/

namespace Sys2Proof.Machine

/-! ### The stack pointer's arithmetic -/

/-- An increment of SP that stays in range does not wrap. -/
theorem toNat_ofNat_add_one {v : Byte} (h : v.toNat < 255) : (BitVec.ofNat 8 (v.toNat + 1)).toNat = v.toNat + 1 := by
  rw [BitVec.toNat_ofNat, Nat.mod_eq_of_lt (by omega)]

theorem setSpAfter_of_lt (s : State) {base : Byte} (h : base.toNat < 255) :
    setSpAfter s base = .ok (s.setReg 7 (BitVec.ofNat 8 (base.toNat + 1))) :=
  ((setSpAfter_cases s base).resolve_left fun hb => h.ne hb.1).2

theorem setSpAfter_of_eq (s : State) {base : Byte} (h : base.toNat = 255) :
    setSpAfter s base = .error (.memoryOutOfBounds 256) :=
  ((setSpAfter_cases s base).resolve_right fun hb => hb.1.ne h).2

/-! ### PUSH -/

/-- PUSH of a register with an SP above 0 stores the value that the register has once SP has moved. -/
theorem exec_push_of_eq {a : Byte} {r : Fin 8} (ha : a.toNat = r.val) {s : State} (hsp : s.sp.toNat ≠ 0) :
    exec (.push a) s = .next ((s.pushed (s.pushValue r)).advance 1) := by
  obtain ⟨-, hdec⟩ := (decSp_cases s).resolve_left fun hz => hsp hz.1
  refine (s.commit_chkreg_of_eq ha _).trans ?_
  simp only [hdec, storeAtSp_setReg, bind, Except.bind, pure, Except.pure, State.commit_ok, State.pushValue]

/-- PUSH of a register at SP = 0 faults in the decrement. -/
theorem exec_push_of_sp_zero {a : Byte} (ha : a.toNat < 8) {s : State} (hsp : s.sp.toNat = 0) :
    exec (.push a) s = .next (s.raise (.memoryOutOfBounds (-1))) := by
  obtain ⟨-, hdec⟩ := (decSp_cases s).resolve_right fun hz => hz.1 hsp
  refine (s.commit_chkreg_of_eq (r := ⟨a.toNat, ha⟩) rfl _).trans ?_
  simp only [hdec, bind, Except.bind, State.commit_error]

/-- PUSH R7 stores the decremented SP, a PUSH of any other register its value (the spec's decision D13). -/
theorem State.toNat_pushValue (s : State) (r : Fin 8) :
    (s.pushValue r).toNat = if r = 7 then s.sp.toNat - 1 else (s.getReg r).toNat := by
  split_ifs with h
  · rw [h, State.pushValue, State.getReg_setReg_self, pushed_toNat]
  · rw [State.pushValue, s.getReg_setReg_other _ (Ne.symm h)]

/-- Settles O27: by whether the check of the source passes, and then whether SP can be decremented. -/
theorem pushStoresAtNewTop : Obligations.PushStoresAtNewTop := by
  refine ⟨fun s a r ha hsp => ⟨_, exec_push_of_eq ha hsp, ?_, fun j hj => ?_, fun hw => ?_, fun c hc => ?_,
    rfl, rfl, rfl, rfl, rfl, rfl, rfl⟩, fun s _ ha => s.commit_chkreg_of_ge ha _,
    fun _ _ ha hsp => exec_push_of_sp_zero ha hsp⟩
  · rw [State.sp_advance, State.sp_pushed, pushed_toNat]
  · exact s.getReg_pushed_other (s.pushValue r) hj.symm
  · exact (congrArg BitVec.toNat (Memory.get_put_self hw _ _)).trans (s.toNat_pushValue r)
  · exact s.readByte_pushed_other (s.pushValue r) hc

/-! ### POP -/

/-- POP of a register writes the byte at SP there and then sets SP after `base`, the SP that this write leaves. -/
theorem exec_pop_of_eq {a : Byte} {r : Fin 8} (ha : a.toNat = r.val) (s : State) {base : Byte}
    (hbase : (s.setReg r (s.readByte s.sp.toNat)).sp = base) :
    exec (.pop a) s =
      s.commit ((setSpAfter (s.setReg r (s.readByte s.sp.toNat)) base).map (·.advance 1)) := by
  subst hbase
  refine (s.commit_chkreg_of_eq ha _).trans ?_
  rw [memRead_sp]
  rfl

section
variable {a : Byte} {r : Fin 8} (ha : a.toNat = r.val) {s : State} {base : Byte}
  (hbase : (s.setReg r (s.readByte s.sp.toNat)).sp = base)
include ha hbase

theorem exec_pop_of_lt (h : base.toNat < 255) :
    exec (.pop a) s = .next
      (((s.setReg r (s.readByte s.sp.toNat)).setReg 7 (BitVec.ofNat 8 (base.toNat + 1))).advance 1) := by
  rw [exec_pop_of_eq ha s hbase, setSpAfter_of_lt _ h]
  rfl

theorem exec_pop_of_full (h : base.toNat = 255) : exec (.pop a) s = .next (s.raise (.memoryOutOfBounds 256)) := by
  rw [exec_pop_of_eq ha s hbase, setSpAfter_of_eq _ h]
  rfl

end

/-- Settles O28: by whether the check of the destination passes, whether it is SP, which the popped byte then replaces
before the increment, and whether the increment stays in range. -/
theorem popLoadsFromTop : Obligations.PopLoadsFromTop := by
  refine ⟨fun s a r ha hr hsp => exec_pop_of_lt ha (s.sp_setReg_other _ hr) hsp, fun s a ha hv => ?_,
    fun s _ ha => s.commit_chkreg_of_ge ha _, fun s a ha hsp => ?_, fun s a ha hv => ?_⟩
  · refine ⟨_, exec_pop_of_lt (r := 7) ha (s.sp_setReg_seven _) hv, ?_, fun j hj => ?_,
      rfl, rfl, rfl, rfl, rfl, rfl, rfl, rfl⟩
    · rw [State.sp_advance, State.sp_setReg_seven, toNat_ofNat_add_one hv]
    · rw [State.getReg_advance, State.getReg_setReg_other _ _ hj.symm, s.getReg_setReg_other _ hj.symm]
  · have hr : (⟨a.toNat, by omega⟩ : Fin 8) ≠ 7 := Fin.ne_of_lt ha
    exact exec_pop_of_full rfl (s.sp_setReg_other _ hr) hsp
  · exact exec_pop_of_full (r := 7) ha (s.sp_setReg_seven _) hv

/-! ### The round trip -/

theorem State.setReg_getReg (s : State) (r : Fin 8) : s.setReg r (s.getReg r) = s := by
  simp [State.setReg, State.getReg]

/-- POP of a register that holds the byte at SP already only moves SP. -/
theorem exec_pop_of_held {a : Byte} {r : Fin 8} (ha : a.toNat = r.val) {s : State}
    (hr : s.readByte s.sp.toNat = s.getReg r) (hsp : s.sp.toNat < 255) :
    exec (.pop a) s = .next ((s.setReg 7 (BitVec.ofNat 8 (s.sp.toNat + 1))).advance 1) := by
  have hself : s.setReg r (s.readByte s.sp.toNat) = s := by rw [hr, s.setReg_getReg]
  have h := exec_pop_of_lt ha (congrArg State.sp hself) hsp
  rwa [hself] at h

/-- The increment undoes the decrement of an SP above 0. -/
theorem State.ofNat_sp_pushed_add_one {s : State} (hsp : s.sp.toNat ≠ 0) (v : Byte) :
    BitVec.ofNat 8 ((s.pushed v).sp.toNat + 1) = s.sp := by
  rw [State.sp_pushed, pushed_toNat, Nat.sub_add_cancel (Nat.pos_of_ne_zero hsp), BitVec.ofNat_toNat,
    BitVec.setWidth_eq]

/-- A push changes no register but SP, so setting SP back restores the register file. -/
theorem State.getReg_pushed_setReg_sp (s : State) (v : Byte) (j : Fin 8) :
    ((s.pushed v).setReg 7 s.sp).getReg j = s.getReg j := by
  rw [State.getReg_setReg]
  split_ifs with h
  · rw [← h, State.sp_eq]
  · exact s.getReg_pushed_other v h

/-- Settles O29: the byte at the new top is the value the pushed register has after the PUSH, SP included, so the POP only
moves SP back. -/
theorem pushPopRoundTrip : Obligations.PushPopRoundTrip := by
  intro s a hw ha hsp
  obtain ⟨r, hr⟩ : ∃ r : Fin 8, a.toNat = r.val := ⟨⟨_, ha⟩, rfl⟩
  have htop : (s.pushed (s.pushValue r)).readByte (s.pushed (s.pushValue r)).sp.toNat =
      (s.pushed (s.pushValue r)).getReg r := State.readByte_sp_pushed hw _
  have hlt : (s.pushed (s.pushValue r)).sp.toNat < 255 := by
    have := s.sp.isLt
    rw [State.sp_pushed, pushed_toNat]
    omega
  have hpop := exec_pop_of_held (s := (s.pushed (s.pushValue r)).advance 1) hr htop hlt
  rw [State.sp_advance, State.ofNat_sp_pushed_add_one hsp] at hpop
  exact ⟨_, _, exec_push_of_eq hr hsp, hpop, s.getReg_pushed_setReg_sp (s.pushValue r), rfl, rfl, rfl, rfl,
    fun _ => s.readByte_pushed_other (s.pushValue r)⟩

end Sys2Proof.Machine
end

section
/-! CALL, RET, JMP, JEQ, JNE: each rule with its register checked, SP in range and, for CALL, a return address that fits in
a byte, the faults it takes when they are not, and the round trip of a CALL and a RET. -/

namespace Sys2Proof.Machine

/-! ### CALL -/

/-- A rule that decrements SP goes on with the decremented SP when SP is above 0. -/
theorem State.commit_decSp_of_ne_zero {s : State} (hsp : s.sp.toNat ≠ 0) (rule : State → Except Fault State) :
    s.commit (decSp s >>= rule) = s.commit (rule (s.setReg 7 (BitVec.ofNat 8 (s.sp.toNat - 1)))) := by
  rw [((decSp_cases s).resolve_left fun hz => hsp hz.1).2]
  rfl

/-- A rule that decrements SP ends there when SP is 0. -/
theorem State.commit_decSp_of_eq_zero {s : State} (hsp : s.sp.toNat = 0) (rule : State → Except Fault State) :
    s.commit (decSp s >>= rule) = .next (s.raise (.memoryOutOfBounds (-1))) := by
  rw [((decSp_cases s).resolve_right fun hz => hz.1 hsp).2]
  rfl

/-- CALL of a register at SP = 0 faults in the decrement, before the return address is computed. -/
theorem exec_call_of_sp_zero {a : Byte} (ha : a.toNat < 8) {s : State} (hsp : s.sp.toNat = 0) :
    exec (.call a) s = .next (s.raise (.memoryOutOfBounds (-1))) :=
  (s.commit_chkreg_of_eq (r := ⟨a.toNat, ha⟩) rfl _).trans (State.commit_decSp_of_eq_zero hsp _)

section
variable {a : Byte} {r : Fin 8} (ha : a.toNat = r.val) {s : State} (hsp : s.sp.toNat ≠ 0)
include ha hsp

/-- CALL of a register with an SP above 0 computes the return address, pushes it, and jumps to the value that the register
has once SP has moved. -/
theorem exec_call_of_eq :
    exec (.call a) s = s.commit ((returnAddress s).map fun ret => (s.pushed ret).jumpTo (s.pushValue r)) := by
  refine ((s.commit_chkreg_of_eq ha _).trans (State.commit_decSp_of_ne_zero hsp _)).trans ?_
  simp only [storeAtSp_setReg]
  rfl

theorem exec_call_of_pc_le (hpc : s.pc ≤ 253) :
    exec (.call a) s = .next ((s.pushed (BitVec.ofNat 8 (s.pc + 2))).jumpTo (s.pushValue r)) := by
  rw [exec_call_of_eq ha hsp, ((returnAddress_cases s).resolve_left fun h => by omega).2]
  rfl

theorem exec_call_of_pc_eq (hpc : s.pc = 254) : exec (.call a) s = .next (s.raise (.memoryOutOfBounds 256)) := by
  rw [exec_call_of_eq ha hsp, ((returnAddress_cases s).resolve_right fun h => by omega).2, hpc]
  rfl

end

theorem State.toNat_returnAddress {s : State} (hpc : s.pc ≤ 253) : (BitVec.ofNat 8 (s.pc + 2)).toNat = s.pc + 2 := by
  rw [BitVec.toNat_ofNat, Nat.mod_eq_of_lt (by omega)]

/-- Settles O30: by whether the check of the target register passes, then whether SP can be decremented, then whether the
return address fits in a byte. -/
theorem callPushesReturnAddress : Obligations.CallPushesReturnAddress := by
  refine ⟨fun s a r ha hsp hpc => ⟨_, exec_call_of_pc_le ha hsp hpc, s.toNat_pushValue r, ?_, fun j hj => ?_, fun hw => ?_,
    fun c hc => ?_, rfl, rfl, rfl, rfl, rfl, rfl⟩, fun s _ ha => s.commit_chkreg_of_ge ha _,
    fun _ _ ha hsp => exec_call_of_sp_zero ha hsp,
    fun _ a ha hsp hpc => exec_call_of_pc_eq (r := ⟨a.toNat, ha⟩) rfl hsp hpc⟩
  · rw [State.sp_jumpTo, State.sp_pushed, pushed_toNat]
  · exact s.getReg_pushed_other (BitVec.ofNat 8 (s.pc + 2)) hj.symm
  · exact (congrArg BitVec.toNat (Memory.get_put_self hw _ _)).trans (State.toNat_returnAddress hpc)
  · exact s.readByte_pushed_other _ hc

/-! ### RET -/

theorem exec_ret_of_lt {s : State} (hsp : s.sp.toNat < 255) :
    exec .ret s = .next ((s.setReg 7 (BitVec.ofNat 8 (s.sp.toNat + 1))).jumpTo (s.readByte s.sp.toNat)) := by
  rw [exec, execRet, ((popByte_cases s).resolve_left fun h => hsp.ne h.1).2]
  rfl

theorem exec_ret_of_full {s : State} (hsp : s.sp.toNat = 255) :
    exec .ret s = .next (s.raise (.memoryOutOfBounds 256)) := by
  rw [exec, execRet, ((popByte_cases s).resolve_right fun h => h.1.ne hsp).2]
  rfl

/-- Settles O31: by whether the increment of SP stays in range. -/
theorem retPopsThePc : Obligations.RetPopsThePc :=
  ⟨fun _ hsp => exec_ret_of_lt hsp, fun _ hsp => exec_ret_of_full hsp⟩

/-! ### The round trip -/

/-- The SP that a push leaves can be incremented. -/
theorem State.toNat_sp_pushed_lt (s : State) (v : Byte) : (s.pushed v).sp.toNat < 255 := by
  have := s.sp.isLt
  rw [State.sp_pushed, pushed_toNat]
  omega

/-- RET after a push of `v`, wherever the pc stands by then, moves SP back and jumps to `v`. -/
theorem exec_ret_of_pushed {s : State} (hw : s.mem.wf = true) (hsp : s.sp.toNat ≠ 0) (v target : Byte) :
    exec .ret ((s.pushed v).jumpTo target) = .next (((s.pushed v).setReg 7 s.sp).jumpTo v) := by
  have htop : ((s.pushed v).jumpTo target).readByte (s.pushed v).sp.toNat = v := State.readByte_sp_pushed hw v
  rw [exec_ret_of_lt (s := (s.pushed v).jumpTo target) (s.toNat_sp_pushed_lt v), State.sp_jumpTo, htop,
    State.ofNat_sp_pushed_add_one hsp]
  rfl

/-- Settles O32: the byte at the new top is the return address, so RET jumps there and only moves SP back. -/
theorem callRetRoundTrip : Obligations.CallRetRoundTrip := by
  intro s a hw ha hsp hpc
  exact ⟨_, _, exec_call_of_pc_le (r := ⟨a.toNat, ha⟩) rfl hsp hpc, exec_ret_of_pushed hw hsp _ _,
    State.toNat_returnAddress hpc, s.getReg_pushed_setReg_sp _, rfl, rfl, rfl, fun _ => s.readByte_pushed_other _⟩

/-! ### The jumps -/

/-- Settles O33: by whether the check of the target register passes. -/
theorem jmpSetsThePc : Obligations.JmpSetsThePc :=
  ⟨fun s _ _ ha => s.commit_chkreg_of_eq ha _, fun s _ ha => s.commit_chkreg_of_ge ha _⟩

theorem State.commit_branchRule_taken {a : Byte} {r : Fin 8} (ha : a.toNat = r.val) (s : State) :
    s.commit (branchRule true a s) = .next (s.jumpTo (s.getReg r)) :=
  s.commit_chkreg_of_eq ha _

theorem State.commit_branchRule_not_taken {a : Byte} (ha : a.toNat < 8) (s : State) :
    s.commit (branchRule false a s) = .next (s.advance 1) :=
  s.commit_chkreg_of_eq (r := ⟨a.toNat, ha⟩) rfl _

/-- The index is checked whether or not the jump is taken (the spec's decision D14). -/
theorem State.commit_branchRule_of_ge {a : Byte} (ha : 8 ≤ a.toNat) (taken : Bool) (s : State) :
    s.commit (branchRule taken a s) = .next (s.raise (.registerOutOfBounds a)) :=
  s.commit_chkreg_of_ge ha _

/-- JEQ is the common rule, taken when E is set. -/
theorem exec_jeq_of_flagE {s : State} {taken : Bool} (hE : flagE s.fl = taken) (a : Byte) :
    exec (.jeq a) s = s.commit (branchRule taken a s) := by
  rw [exec, execJeq, hE]

/-- JNE is the common rule, taken when E is clear. -/
theorem exec_jne_of_flagE {s : State} {taken : Bool} (hE : flagE s.fl = !taken) (a : Byte) :
    exec (.jne a) s = s.commit (branchRule taken a s) := by
  rw [exec, execJne, hE, Bool.not_not]

/-- Settles O34: the rule's three cases, the jump taken when E is set. -/
theorem jeqJumpsWhenEqual : Obligations.JeqJumpsWhenEqual :=
  ⟨fun s a _ ha hE => (exec_jeq_of_flagE hE a).trans (s.commit_branchRule_taken ha),
    fun s a ha hE => (exec_jeq_of_flagE hE a).trans (s.commit_branchRule_not_taken ha),
    fun s _ ha => s.commit_branchRule_of_ge ha _⟩

/-- Settles O35: the rule's three cases, the jump taken when E is clear. -/
theorem jneJumpsWhenNotEqual : Obligations.JneJumpsWhenNotEqual :=
  ⟨fun s a _ ha hE => (exec_jne_of_flagE (taken := true) hE a).trans (s.commit_branchRule_taken ha),
    fun s a ha hE => (exec_jne_of_flagE (taken := false) hE a).trans (s.commit_branchRule_not_taken ha),
    fun s _ ha => s.commit_branchRule_of_ge ha _⟩

end Sys2Proof.Machine
end

section
/-! Which fault a step can take: the fault's kind, what its info is limited to, and the ALU rule of another tag. -/

namespace Sys2Proof.Machine

/-- The fetch raises UnknownInstruction of the byte at the pc, or MemoryOutOfBounds (60_exceptions.md R183, R184). -/
theorem fetch_error_kind {s : State} {k : Fault} (h : fetch s = .error k) :
    k = .unknownInstruction (s.readByte s.pc) ∨ ∃ addr, k = .memoryOutOfBounds addr := by
  obtain ⟨-, e⟩ | ⟨-, -, e⟩ | ⟨-, op, -, -, e⟩ | ⟨op, -, -, e⟩ := fetch_cases s <;> rw [e] at h <;> cases h
  · exact .inr ⟨_, rfl⟩
  · exact .inl rfl
  · exact .inr ⟨_, rfl⟩

/-- An instruction's rule raises MemoryOutOfBounds or RegisterOutOfBounds (60_exceptions.md R184, R185). -/
theorem Raises.kind {i : Instr} {s : State} {k : Fault} (h : Raises i s k) :
    (∃ addr, k = .memoryOutOfBounds addr) ∨ ∃ b, k = .registerOutOfBounds b := by
  obtain ⟨b, -, rfl⟩ | ⟨rfl, -⟩ | rfl | ⟨-, -, rfl⟩ := h
  · exact .inr ⟨b, rfl⟩
  all_goals exact .inl ⟨_, rfl⟩

section
variable {s t : State} {f : FaultRecord} (hs : s.run = .running) (h : step s = .next t) (hf : t.run = .faulted f)
include hs h hf

/-- The kinds of the faults that end a step from Running, at whatever pc. -/
theorem step_fault_kind :
    f.kind = .unknownInstruction (s.readByte s.pc) ∨ (∃ addr, f.kind = .memoryOutOfBounds addr) ∨
      ∃ b, f.kind = .registerOutOfBounds b := by
  obtain ⟨-, -, hfetch | ⟨i, -, -, hk⟩⟩ := step_faulted_inv hs h hf
  · exact (fetch_error_kind hfetch).imp_right .inl
  · exact .inr hk.kind

/-- From a pc the machine can have, such a fault's info is within the table of its kind. -/
theorem step_fault_legal (hpc : s.pc ≤ 256) : legalFault f.kind = true := by
  obtain ⟨-, -, hfetch | ⟨i, hfetch, -, hk⟩⟩ := step_faulted_inv hs h hf
  · exact fetch_error_legal hpc hfetch
  · obtain ⟨-, hn⟩ := fetch_ok_inv hfetch
    exact hk.legal hn

end

/-- Settles O13: by the kinds a step can take, each with what a legal fault of that kind carries. -/
theorem faultInfoIsAsTabled : Obligations.FaultInfoIsAsTabled := by
  intro s t f hs hpc h hf
  have hlegal := step_fault_legal hs h hf hpc
  obtain hk | ⟨addr, hk⟩ | ⟨b, hk⟩ := step_fault_kind hs h hf <;> rw [hk] at hlegal ⊢
  · refine .inl ⟨_, rfl, rfl, fun op hop => ?_⟩
    simp [legalFault, hop] at hlegal
  · obtain rfl | rfl : addr = 256 ∨ addr = -1 := by simpa [legalFault] using hlegal
    · exact .inr (.inl rfl)
    · exact .inr (.inr (.inl rfl))
  · exact .inr (.inr (.inr ⟨b, rfl, by simpa [legalFault, validIndex] using hlegal⟩))

/-- The ALU rule of another tag fails once both checks have passed (60_exceptions.md R186). -/
theorem aluRule_other_of_lt {a b : Byte} (ha : a.toNat < 8) (hb : b.toNat < 8) (s : State) :
    aluRule .other a b s = .error .internalFault :=
  aluRule_of_eq .other (ra := ⟨a.toNat, ha⟩) (rb := ⟨b.toNat, hb⟩) rfl rfl s

/-- Settles O14: the rule of another tag fails after its checks, and InternalFault is none of the kinds a step can take. -/
theorem internalFaultIsUnreachable : Obligations.InternalFaultIsUnreachable := by
  refine ⟨fun s a b ha hb => ?_, fun s t f hs h hf => ?_⟩
  · rw [aluRule_other_of_lt ha hb]
    rfl
  · obtain hk | ⟨_, hk⟩ | ⟨_, hk⟩ := step_fault_kind hs h hf <;> simp [hk]

end Sys2Proof.Machine
end

section
/-! The first bad register operand: which operand byte it is, and that every rule faults on it before all else. -/

namespace Sys2Proof.Machine

theorem find_bad_one_iff {a c : Byte} : [a].find? (!validIndex ·) = some c ↔ 8 ≤ a.toNat ∧ a = c := by
  simp [validIndex]

/-- The first bad one of two operand bytes is the second only when the first names a register. -/
theorem find_bad_two_iff {a b c : Byte} :
    [a, b].find? (!validIndex ·) = some c ↔ (8 ≤ a.toNat ∧ a = c) ∨ (a.toNat < 8 ∧ 8 ≤ b.toNat ∧ b = c) := by
  simp [List.find?_cons_eq_some, validIndex]

/-- A rule that selects the ALU faults on the first bad one of its two operands, whatever its tag. -/
theorem State.commit_aluRule_of_bad {a b c : Byte} (h : [a, b].find? (!validIndex ·) = some c) (tag : AluTag)
    (s : State) : s.commit (aluRule tag a b s) = .next (s.raise (.registerOutOfBounds c)) := by
  obtain ⟨ha, rfl⟩ | ⟨ha, hb, rfl⟩ := find_bad_two_iff.mp h
  · exact s.commit_aluRule_of_left_ge tag b ha
  · exact s.commit_aluRule_of_right_ge tag ha hb

/-- An instruction with a bad register operand faults on the first one, in the state it started from. -/
theorem exec_of_firstBadIndex {i : Instr} {b : Byte} (h : firstBadIndex i = some b) (s : State) :
    exec i s = .next (s.raise (.registerOutOfBounds b)) := by
  cases i with
  | hlt | ret => cases h
  | mul | add | cmp => exact State.commit_aluRule_of_bad h _ s
  | ldi | prn | push | pop | call | jmp | jeq | jne =>
    obtain ⟨ha, rfl⟩ := find_bad_one_iff.mp h
    exact s.commit_chkreg_of_ge ha _

/-- A rule raises RegisterOutOfBounds of its first bad operand only. -/
theorem Raises.firstBadIndex_eq {i : Instr} {s : State} {b : Byte} (h : Raises i s (.registerOutOfBounds b)) :
    firstBadIndex i = some b := by
  obtain ⟨c, hc, e⟩ | ⟨e, -⟩ | e | ⟨-, -, e⟩ := h <;> cases e
  exact hc

/-- Settles O15: the first bad operand decides the rule, and a well-formed instruction has none. -/
theorem firstBadIndexFaults : Obligations.FirstBadIndexFaults := by
  refine ⟨fun i s b hb => exec_of_firstBadIndex hb s, fun i s t f b hi hs h hf hk => ?_⟩
  obtain ⟨-, -, hraises⟩ := exec_faulted_inv hs h hf
  rw [hk] at hraises
  simpa [firstBadIndex_of_wellFormed hi] using hraises.firstBadIndex_eq

end Sys2Proof.Machine
end

section
/-! The diagnostic port's texts: a byte's two digits read back as its value, and what stands in each field. -/

namespace Sys2Proof.Machine

/-- Each digit's character stands at the digit's place in the row of the sixteen. -/
theorem idxOf_hexDigit (n : Fin 16) :
    hexDigit n ∈ "0123456789ABCDEF".toList ∧ "0123456789ABCDEF".toList.idxOf (hexDigit n) = n := by
  revert n; decide

/-- A byte's text reads back as the byte. -/
theorem showsByte_hexByte (b : Byte) : ShowsByte (hexByte b) b.toNat := by
  obtain ⟨hi_mem, hi⟩ := idxOf_hexDigit ⟨b.toNat / 16, by omega⟩
  obtain ⟨lo_mem, lo⟩ := idxOf_hexDigit ⟨b.toNat % 16, by omega⟩
  refine ⟨_, hi_mem, _, lo_mem, rfl, ?_⟩
  rw [hi, lo]
  exact Nat.div_add_mod' b.toNat 16

/-- The text of a pc that fits in a byte reads back as the pc. -/
theorem showsByte_hexPc {pc : Nat} (h : pc ≤ 255) : ShowsByte (hexPc pc) pc := by
  have hlt : pc < 256 := by omega
  have hval : (BitVec.ofNat 8 pc).toNat = pc := by simp [Nat.mod_eq_of_lt hlt]
  rw [hexPc_of_lt hlt]
  simpa only [hval] using showsByte_hexByte (BitVec.ofNat 8 pc)

/-- The port shows the byte `k` places after the pc as its text, or as absent when it has no address. -/
theorem diagnosticPort_bytes_getElem? (s : State) {k : Nat} (hk : k < 3) :
    (diagnosticPort s).bytes[k]? = some (if s.pc + k < 256 then some (hexByte (s.readByte (s.pc + k))) else none) := by
  rw [diagnosticPort_bytes]
  interval_cases k <;> rfl

/-- The port shows register `r` at place `r`. -/
theorem diagnosticPort_regs_getElem? (s : State) (r : Fin 8) :
    (diagnosticPort s).regs[r.val]? = some (hexByte (s.getReg r)) := by
  simp [diagnosticPort_regs, State.getReg]

/-- Settles O52: field by field, each shown value as the text of its byte. -/
theorem diagnosticPortRendersTwoDigitsPerByte : Obligations.DiagnosticPortRendersTwoDigitsPerByte := by
  intro s
  refine ⟨fun hpc => showsByte_hexPc hpc, fun hpc => ?_, rfl, fun k hk hpast => ?_, fun k hk hin => ?_, ?_, fun r => ?_⟩
  · rw [diagnosticPort_pc, hpc]
    decide
  · rw [diagnosticPort_bytes_getElem? s hk, if_neg (by omega)]
  · exact ⟨_, by rw [diagnosticPort_bytes_getElem? s hk, if_pos (by omega)], showsByte_hexByte _⟩
  · simp [diagnosticPort_regs]
  · exact ⟨_, diagnosticPort_regs_getElem? s r, showsByte_hexByte _⟩

end Sys2Proof.Machine
end

section
/-! The image load through the session: what an open session and a closed one answer, and which operations close it. -/

namespace Sys2Proof.Machine

/-- An open session takes an image that fits in the address space, and is closed by it. -/
theorem Session.load_of_open {h : Session} (ho : h.loadOpen = true) {image : List Byte} (hlen : image.length ≤ 256) :
    h.load image = .next ⟨h.machine.load image, false⟩ := by
  simp [Session.load, ho, hlen]

/-- A closed session refuses every image, whatever its length. -/
theorem Session.load_of_closed {h : Session} (hc : h.loadOpen = false) (image : List Byte) :
    h.load image = .refused .loadNotAccepted := by
  simp [Session.load, hc]

/-- An accepted load closes the session. -/
theorem Session.closed_of_load {h k : Session} {image : List Byte} (e : h.load image = .next k) :
    k.loadOpen = false := by
  unfold Session.load at e
  split_ifs at e
  cases e
  rfl

/-- A step closes the session, whatever its result. -/
theorem Session.closed_of_step {h k : Session} {r : StepResult} (e : h.step = .next (k, r)) : k.loadOpen = false := by
  unfold Session.step at e
  split at e <;> cases e
  rfl

/-- What a cell of the address space reads after a load: the image's byte there, or else what it held before. -/
theorem State.readByte_load {s : State} (hw : s.mem.wf = true) (image : List Byte) {a : Nat} (ha : a < 256) :
    (s.load image).readByte a = (image[a]?).getD (s.readByte a) :=
  (Memory.get_putBytes hw 0 a image).trans (if_pos ⟨a.zero_le, ha⟩)

/-- Settles O48: construction leaves the session open, reset memory is canonical and reads the fill value, and a load
sets no field but memory. -/
theorem loadPlacesTheImage : Obligations.LoadPlacesTheImage := fun image hlen =>
  ⟨_, Session.load_of_open rfl hlen, fun _ ha => State.readByte_load State.reset_mem_wf image ha, rfl⟩

/-- Settles O49: a load and a step each close the session, and a closed session refuses. -/
theorem loadIsAcceptedOnce : Obligations.LoadIsAcceptedOnce :=
  ⟨fun _ _ _ image' e => Session.load_of_closed (Session.closed_of_load e) image',
    fun _ _ _ image e => Session.load_of_closed (Session.closed_of_step e) image⟩

end Sys2Proof.Machine
end

section
/-! The image text: a line that is a bare binary literal is that cell, lines that are cells are read as their bytes in
order, and the digits of a number read back as the number. -/

namespace Sys2Proof.Machine

/-! ### One line -/

/-- When a text is a literal, and of which byte. -/
theorem parseLiteral_eq_some_iff {text : List Char} {v : Byte} :
    parseLiteral text = some v ↔
      (text ≠ [] ∧ (∀ c ∈ text, c = '0' ∨ c = '1') ∧ binaryValue text ≤ 255) ∧
        BitVec.ofNat 8 (binaryValue text) = v := by
  simp [parseLiteral, List.all_eq_true]

/-- Trimming keeps a text without whitespace. -/
theorem trimSpaces_of_no_space {text : List Char} (h : ∀ c ∈ text, isSpace c = false) : trimSpaces text = text := by
  have keeps {l : List Char} (hl : ∀ c ∈ l, isSpace c = false) : l.dropWhile isSpace = l :=
    List.dropWhile_eq_self_iff.mpr fun hpos => by simp [hl _ (List.getElem_mem hpos)]
  rw [trimSpaces, keeps h, keeps (by simpa using h), List.reverse_reverse]

/-- A line without a `#` stands before it as a whole. -/
theorem beforeHash_of_no_hash {line : List Char} (h : '#' ∉ line) : beforeHash line = line := by
  rw [beforeHash, List.takeWhile_eq_self_iff]
  exact fun c hc => bne_iff_ne.mpr fun e => h (e ▸ hc)

/-- A line that is a bare literal, with no whitespace and no comment, is one cell: it has digits only, so it is not
skipped, and nothing is cut from it. -/
theorem readLine_of_parseLiteral {line : List Char} {v : Byte} (h : parseLiteral line = some v) :
    readLine line = .cell v := by
  obtain ⟨⟨hne, hdigits, -⟩, -⟩ := parseLiteral_eq_some_iff.mp h
  have hspace : ∀ c ∈ line, isSpace c = false := fun c hc => by
    obtain rfl | rfl := hdigits c hc <;> rfl
  have hhash : '#' ∉ line := fun hc => by simpa using hdigits _ hc
  have hskip : ¬(isBlank line || line.head? == some '#') = true := by
    obtain ⟨c, rest, rfl⟩ := List.exists_cons_of_ne_nil hne
    obtain rfl | rfl := hdigits c List.mem_cons_self <;> simp [isBlank, isSpace]
  rw [readLine, if_neg hskip, beforeHash_of_no_hash hhash, trimSpaces_of_no_space hspace, h]

/-! ### The lines of an image -/

/-- A cell with an address is put before the cells of the lines after it. -/
theorem parseLines_cons_of_cell {line : List Char} {v : Byte} (h : readLine line = .cell v) {address : Nat}
    (ha : address < 256) (rest : List (List Char)) :
    parseLines address (line :: rest) = (v :: ·) <$> parseLines (address + 1) rest := by
  rw [parseLines, h]
  simp only [if_neg (show ¬Config.imageMax ≤ address from Nat.not_le.mpr ha)]
  cases parseLines (address + 1) rest <;> rfl

/-- A cell past the last address is ImageTooLarge, reported with its line. -/
theorem parseLines_cons_of_too_large {line : List Char} {v : Byte} (h : readLine line = .cell v) {address : Nat}
    (ha : 256 ≤ address) (rest : List (List Char)) : parseLines address (line :: rest) = .error (.imageTooLarge line) := by
  rw [parseLines, h]
  exact if_pos ha

/-- Lines that are the cells of `image`, all with an address, are read as `image` before what the lines after them give. -/
theorem parseLines_map_append {text : Byte → List Char} (htext : ∀ b, readLine (text b) = .cell b) {address : Nat}
    {image : List Byte} (hlen : address + image.length ≤ 256) (rest : List (List Char)) :
    parseLines address (image.map text ++ rest) = (image ++ ·) <$> parseLines (address + image.length) rest := by
  induction image generalizing address with
  | nil => simp
  | cons b image ih =>
    rw [List.length_cons] at hlen
    rw [List.map_cons, List.cons_append, parseLines_cons_of_cell (htext b) (by omega), ih (by omega), List.length_cons,
      Nat.add_right_comm, ← Nat.add_assoc, ← comp_map]
    rfl

/-! ### The digits of a number -/

/-- The lowest `n` binary digits of `v`, the most significant first. -/
def binaryDigits (v : Nat) : Nat → List Char
  | 0 => []
  | n + 1 => (if v.testBit n then '1' else '0') :: binaryDigits v n

theorem mem_binaryDigits {v n : Nat} {c : Char} (h : c ∈ binaryDigits v n) : c = '0' ∨ c = '1' := by
  induction n with
  | zero => cases h
  | succ n ih =>
    obtain rfl | h := List.mem_cons.mp h
    · exact (ite_eq_or_eq _ _ _).symm
    · exact ih h

/-- Reading digits after a value `acc` shifts it left by their number and fills in the digits' value. -/
theorem foldl_binaryDigits (v n acc : Nat) :
    (binaryDigits v n).foldl (fun a c => 2 * a + (if c = '1' then 1 else 0)) acc = acc * 2 ^ n + v % 2 ^ n := by
  induction n generalizing acc with
  | zero => simp [binaryDigits, Nat.mod_one]
  | succ n ih =>
    rw [binaryDigits, List.foldl_cons, ih, Nat.mod_pow_succ, ← Nat.toNat_testBit]
    cases v.testBit n <;> simp <;> ring

theorem binaryValue_binaryDigits (v n : Nat) : binaryValue (binaryDigits v n) = v % 2 ^ n :=
  (foldl_binaryDigits v n 0).trans (by simp)

/-- The eight digits of a byte are a literal of that byte. -/
theorem parseLiteral_binaryDigits (b : Byte) : parseLiteral (binaryDigits b.toNat 8) = some b := by
  have hval : binaryValue (binaryDigits b.toNat 8) = b.toNat :=
    (binaryValue_binaryDigits _ _).trans (Nat.mod_eq_of_lt b.isLt)
  rw [parseLiteral_eq_some_iff, hval]
  exact ⟨⟨List.cons_ne_nil _ _, fun _ => mem_binaryDigits, by omega⟩, BitVec.ofNat_toNat 8 b⟩

/-- Settles O51: each line is the eight digits of its byte, and so one cell; up to 256 of them are the image, and with all
256 addresses taken the next line is the one reported. -/
theorem binaryTextLoadsAsItsBytes : Obligations.BinaryTextLoadsAsItsBytes := by
  unfold Obligations.BinaryTextLoadsAsItsBytes
  intro text
  have htext (b : Byte) : readLine (text b) = .cell b := readLine_of_parseLiteral (parseLiteral_binaryDigits b)
  refine ⟨fun image hlen => ?_, fun image more b hlen => ?_⟩
  · have := parseLines_map_append htext (address := 0) (image := image) (by omega) []
    simpa [parseImage, parseLines] using this
  · rw [List.map_append, List.map_cons, parseImage, parseLines_map_append htext (by omega),
      parseLines_cons_of_too_large (htext b) (by omega)]
    rfl

end Sys2Proof.Machine
end
